-- ==== Sys2Proof/Word.lean ====
section
/-! DEFINITION. The machine's word and the range of its values (00_scope.md rules R7 and R9, decisions D1 and D2). -/

namespace Sys2Proof

/-- `Word` of rule R9: a 64-bit two's-complement signed integer (`WORD_BITS = 64`, rule R7). Its signed value is
`BitVec.toInt`. -/
abbrev Word := BitVec 64

/-- `UWord` of rule R9: a 64-bit unsigned integer (`PC_BITS = 64`, rule R7), the type of the program counter. -/
abbrev UWord := BitVec 64

/-- The mathematical integer `v` lies in `Word`, that is in [-2^63, 2^63-1] (rule R9). -/
abbrev InWord (v : Int) : Prop := -9223372036854775808 ≤ v ∧ v ≤ 9223372036854775807

end Sys2Proof
end

