-- ==== Sys2Proof/Config.lean ====
section
/-! DEFINITION. The implementation parameters of 00_scope.md rule R7. `WORD_BITS` and `PC_BITS` are the widths of
`Word` and `UWord`; `INSTANCES` needs no number here, because the state holds any number of instances (log entry 4). -/

namespace Sys2Proof

/-- `OVERFLOW_MODE` of rule R7: what an arithmetic result outside `Word` does (decision D3). -/
inductive OverflowMode where
  /-- It raises `ArithmeticOverflow`. The spec's default. -/
  | fault
  /-- It is reduced modulo 2^64 into `Word`. -/
  | wrap
  deriving DecidableEq, Repr

/-- The parameters of rule R7 that a model takes as arguments. The state holds one such record, which no step changes
(log entry 2), so that a statement about every state is a statement about every choice of parameters. A capacity is
`none` when it is `unbounded` and `some n` when it is the positive integer `n`. -/
structure Config where
  /-- `OVERFLOW_MODE`. -/
  overflowMode : OverflowMode
  /-- `STRICT_MODE_DIGITS`: non-zero digits above an instruction's own mode digits fault. -/
  strictModeDigits : Bool
  /-- `MEM_CAP`, OPEN: the largest length the memory may grow to. -/
  memCap : Option Nat
  /-- `IN_DEPTH`, OPEN: the input queue's capacity. -/
  inDepth : Option Nat
  /-- `OUT_DEPTH`, OPEN: the output queue's capacity. -/
  outDepth : Option Nat
  deriving DecidableEq, Repr

/-- `PERM_K_MAX` of rule R7 (decision D27). -/
abbrev permKMax : Nat := 5

namespace Config

/-- The defaults of rule R7; `MEM_CAP` has no default there and is unbounded as in the test vectors of
95_test_vectors.md (log entry 3). -/
def default : Config where
  overflowMode := .fault
  strictModeDigits := true
  memCap := none
  inDepth := none
  outDepth := none

/-- A size lies within a capacity: always when unbounded, else at most the capacity. -/
abbrev fits (cap : Option Nat) (n : Nat) : Prop := ∀ b ∈ cap, n ≤ b

/-- Rule R7: every bounded capacity is a positive integer. -/
abbrev wf (cfg : Config) : Prop := fits cfg.memCap 1 ∧ fits cfg.inDepth 1 ∧ fits cfg.outDepth 1

end Config

end Sys2Proof
end

