-- ==== Sys2Proof/Syntax.lean ====
section
/-! DEFINITION. The instructions of the opcode table (30_encoding.md rule R85), one constructor per row. -/

namespace Sys2Proof

/-- The three addressing modes (20_memory.md rule R55). -/
inductive Mode where
  /-- "Position(addr)": the operand is the memory word at the index the parameter word gives. -/
  | position
  /-- "Immediate(value)": the operand is the parameter word itself. -/
  | immediate
  /-- "Relative(offset)": the operand is the memory word at the relative base plus the parameter word. -/
  | relative
  deriving DecidableEq, Repr

/-- An operand, the pair `(mode, p)` of rule R55: an addressing mode and the parameter word, used as stored
(30_encoding.md rule R87). -/
structure Param where
  mode : Mode
  word : Word
  deriving DecidableEq, Repr

/-- A decoded instruction (10_state.md rule R34): one constructor per row of the opcode table (rule R85). The
parameters stand in the order of their words; a destination may have any mode, Immediate too (rule R95). -/
inductive Instr where
  /-- ADD, opcode 1, `Add(a,b,dst)`. -/
  | add (a b dst : Param)
  /-- MUL, opcode 2, `Multiply(a,b,dst)`. -/
  | mul (a b dst : Param)
  /-- IN, opcode 3, `Input(dst)`. -/
  | inp (dst : Param)
  /-- OUT, opcode 4, `Output(src)`. -/
  | out (src : Param)
  /-- JNZ, opcode 5, `JumpIfTrue(cond,target)`. -/
  | jnz (cond target : Param)
  /-- JZ, opcode 6, `JumpIfFalse(cond,target)`. -/
  | jz (cond target : Param)
  /-- LT, opcode 7, `LessThan(a,b,dst)`. -/
  | lt (a b dst : Param)
  /-- EQ, opcode 8, `Equals(a,b,dst)`. -/
  | eq (a b dst : Param)
  /-- ARB, opcode 9, `AdjustRelativeBase(src)`. -/
  | arb (src : Param)
  /-- HLT, opcode 99, `Halt`. -/
  | hlt
  deriving DecidableEq, Repr

end Sys2Proof
end

