-- ==== Sys2Proof/Machine/State.lean ====
section
/-! DEFINITION. The state of the machine as plain data: the core instances (10_state.md rules R20 to R33), the
permutation generator (rule R36), the orchestrator (rule R37), the system fault record (60_exceptions.md rule R233)
and the model's own fields for the host (log entry 5). The decoded instruction is transient and no state (rule R34). -/

namespace Sys2Proof.Machine

/-- The faults of 60_exceptions.md rule R230, codes 1 to 13 in order; code 0 is the absence of a fault. -/
inductive FaultCode where
  | malformedProgram
  | invalidOpcode
  | invalidWrite
  | haltWithoutOutput
  | negativeReadAddress
  | invalidMode
  | fetchOutOfRange
  | invalidJumpTarget
  | arithmeticOverflow
  | capacityExceeded
  | runAfterHalt
  | runToHaltWaiting
  | orchestratorProtocol
  deriving DecidableEq, Repr

/-- What `raise <Fault>(info)` names (00_scope.md rule R11): the fault, its sub-cause and its information word. -/
structure Trap where
  code : FaultCode
  detail : Nat
  addr : Word
  deriving DecidableEq, Repr

/-- The `fault` record of rule R32. `code` is `none` for the number 0, `some` fault otherwise. -/
structure FaultRec where
  code : Option FaultCode
  detail : Nat
  pc : UWord
  addr : Word
  deriving DecidableEq, Repr

/-- The reset value of a fault record: all four fields 0 (rule R32). -/
def FaultRec.clear : FaultRec := ⟨none, 0, 0, 0⟩

/-- `status` of rule R30. -/
inductive Status where
  | running
  | waiting
  | halted
  | faulted
  deriving DecidableEq, Repr

/-- `result` of rule R33: the outcome of the most recent `run`. -/
inductive RunResult where
  | none
  | completed (v : Word)
  | waiting
  deriving DecidableEq, Repr

/-- One word of memory at its index. The smallest unit the spec addresses is the word, not the byte (20_memory.md
rules R50 and R59; log entry 1). -/
abbrev Cell := Nat × Word

/-- A memory `M` (rule R28): its current length `len`, and its non-zero words by rising index. An index that is not
listed holds 0, which is what both a zero-filled slot and a read past `len` give (rules R53 and R54). -/
structure Memory where
  cells : List Cell
  len : Nat
  deriving DecidableEq, Repr

/-- The state of one core instance, exactly the elements of rule R20. -/
structure Core where
  /-- `M` and `len` (rule R28). -/
  mem : Memory
  /-- The program counter (rule R23). -/
  pc : UWord
  /-- The relative base (rule R25). -/
  rb : Word
  /-- The input queue, its front first (rule R26). -/
  inq : List Word
  /-- The output queue, its front first (rule R27). -/
  outq : List Word
  /-- The run-loop state (rule R30). -/
  status : Status
  /-- A `run` call is in progress (rule R31). -/
  busy : Bool
  /-- The fault latch (rule R32). -/
  fault : FaultRec
  /-- The outcome of the most recent `run` (rule R33). -/
  result : RunResult
  deriving DecidableEq, Repr

/-- `gen_state` of rule R36. -/
inductive GenState where
  | idle
  | generating
  | done
  deriving DecidableEq, Repr

/-- The permutation generator (rule R36). `k` is the length of `arrangement`, so it is not stored a second time. -/
structure Generator where
  /-- `A[0..k-1]`. -/
  arrangement : List Word
  /-- `c[0..k-1]`, the "per-depth counter array". -/
  counters : List Nat
  /-- `i`, the "depth pointer". -/
  depth : Nat
  /-- `first`: the initial arrangement has not been emitted yet. -/
  first : Bool
  genState : GenState
  deriving DecidableEq, Repr

/-- `k` of rule R36, the number of values. -/
abbrev Generator.k (g : Generator) : Nat := g.arrangement.length

/-- Where the orchestrator's loops (48_orchestrator.md rules R211, R212, R215) stand between two of its actions. -/
inductive OrchPhase where
  /-- No search is in progress. -/
  | idle
  /-- About to ask the generator for the next arrangement. -/
  | next
  /-- About to push `carried` into machine `index`. -/
  | feed
  /-- About to call `run` on machine `index`. -/
  | call
  /-- The `run` on machine `index` is in progress or has returned. -/
  | collect
  deriving DecidableEq, Repr

/-- The orchestrator's state (rule R37). Its generator is the machine's one generator (log entry 8). -/
structure Orchestrator where
  phase : OrchPhase
  /-- The program words. -/
  program : List Word
  /-- The configuration values. -/
  values : List Word
  /-- `machine[0..k-1]`, as the handles of its core instances. -/
  machines : List Nat
  /-- `i`, the machine to run next. -/
  index : Nat
  /-- The `carried` value. -/
  carried : Word
  /-- The largest final result seen so far. -/
  best : Option Word
  deriving DecidableEq, Repr

/-- A program text, by its characters (46_host_interface.md rule R180). -/
abbrev ProgramText := List Char

/-- The operations of the host (46_host_interface.md rule R189), of the generator (47_permutation.md rule R200), and
the call of the orchestrator (48_orchestrator.md rule R210). `h` is the host's handle of an instance (rule R250). -/
inductive HostOp where
  | new (text : ProgramText)
  | newWithInput (text : ProgramText) (value : Word)
  | pushInput (h : Nat) (value : Word)
  | popOutput (h : Nat)
  | run (h : Nat)
  | runToHalt (h : Nat)
  | clone (h : Nat)
  | drop (h : Nat)
  | genStart (values : List Word)
  | genNext
  | orchestrate (text : ProgramText) (values : List Word)
  deriving DecidableEq, Repr

/-- What the host gets back from its last completed operation (rule R189, the last column). -/
inductive Reply where
  | none
  /-- Nothing, from `push_input`, `drop` or `start`. -/
  | done
  /-- An instance, from `new`, `new_with_input` or `clone`. -/
  | handle (h : Nat)
  | output (o : Option Word)
  | runResult (r : RunResult)
  /-- The value of `run_to_halt`. -/
  | value (v : Word)
  | arrangement (o : Option (List Word))
  /-- The answer of a search (rule R215). -/
  | answer (o : Option Word)
  deriving DecidableEq, Repr

/-- The host call that is blocked inside a `run`. The orchestrator's own calls of `run` are told by its phase. -/
inductive Call where
  | none
  | run
  | runToHalt
  deriving DecidableEq, Repr

/-- The whole machine. One instance stands in `core`, the one the host operates on or runs; the others wait in
`parked` by rising handle. No state is shared between instances (20_memory.md rule R69). -/
structure State where
  /-- The parameters of 00_scope.md rule R7; no step changes them (log entry 2). -/
  cfg : Config
  /-- The instance in focus (rule R20). -/
  core : Core
  /-- The handle of the instance in `core`; `none` after that instance was dropped. -/
  focus : Option Nat
  /-- The other instances, by handle (60_exceptions.md rule R250). -/
  parked : List (Nat × Core)
  /-- The handle the next new instance gets. -/
  nextHandle : Nat
  /-- The permutation generator (rule R36). -/
  gen : Generator
  /-- The orchestrator (rule R37). -/
  orch : Orchestrator
  /-- The system fault record, for faults that concern no instance (60_exceptions.md rule R233). -/
  sysFault : FaultRec
  /-- The host call in progress. -/
  call : Call
  /-- The operations the host will perform, in order: the model's own field for the host's choices (log entry 5). -/
  script : List HostOp
  /-- What the host got back from its last operation. -/
  reply : Reply
  deriving DecidableEq, Repr

/-- Why a step stops the machine. -/
inductive Fault where
  /-- Raised by `step` in a state where a fault is latched anywhere: the system has stopped and no agent steps any more
  (46_host_interface.md rule R191; 60_exceptions.md rules R232 and R233). Safe: it is the rule itself. `code` is
  the latched fault. The step that RAISES a fault is not this one: it answers the next state, with the fault latched
  as 40_execution_cycle.md rule R116 says. -/
  | systemStopped (code : Option FaultCode)
  deriving DecidableEq, Repr

/-- Why a step has no meaning. None of them is answered by an instruction's meaning. -/
inductive Refusal where
  /-- Answered by an arm of `exec` whose instruction has no meaning yet; no arm answers it now. Safe. -/
  | notModelled (mnemonic : String)
  /-- Answered by `step` where no agent has an enabled step: the core is not running (40_execution_cycle.md rule R111),
  no search is in progress and the host does nothing. Safe: nothing happens in the hardware either. -/
  | noEnabledStep
  /-- Answered by a host operation on a handle that names no instance, or a dropped one (rule R188: "A dropped
  instance has no further operation"). Safe. -/
  | noSuchInstance (h : Nat)
  /-- Answered by a host operation whose precondition in rule R189 fails (`busy = 0`, status not Faulted). Safe: the
  spec gives the host no such move (rule R190). -/
  | operationNotEnabled
  /-- Answered by `next` before any `start` (47_permutation.md rule R202: "it has no move"). Safe. -/
  | generatorIdle
  deriving DecidableEq, Repr

/-- An instance right after it is created with the empty memory: every element at the reset value of
70_reset_and_hazards.md rule R260. -/
def Core.reset : Core where
  mem := ⟨[], 0⟩
  pc := 0
  rb := 0
  inq := []
  outq := []
  status := .running
  busy := false
  fault := .clear
  result := .none

/-- The generator at reset: Idle (rule R260). The spec leaves its other fields unspecified until `start`; the values
here are the model's (log entry 7) and nothing reads them while Idle. -/
def Generator.reset : Generator where
  arrangement := []
  counters := []
  depth := 0
  first := true
  genState := .idle

/-- The orchestrator at reset: no search, `best` None (rule R260). The other fields are set when a search begins; the
values here are the model's (log entry 7). -/
def Orchestrator.reset : Orchestrator where
  phase := .idle
  program := []
  values := []
  machines := []
  index := 0
  carried := 0
  best := none

/-- The machine right after reset, before any program is given to it: one instance, handle 0, in the reset state of
rule R260 with no program words, and a host with nothing to do (log entries 3, 5 and 6). -/
def State.reset : State where
  cfg := .default
  core := .reset
  focus := some 0
  parked := []
  nextHandle := 1
  gen := .reset
  orch := .reset
  sysFault := .clear
  call := .none
  script := []
  reply := .none

end Sys2Proof.Machine
end

