-- ==== Sys2Proof/Machine/Ops.lean ====
section
/-! DEFINITION. The named operations every instruction and every host operation is built from: memory, raising a
fault, and applying the directive that ends a cycle. -/

namespace Sys2Proof.Machine

/-! ### Lists of entries by rising key (memory cells, parked instances) -/

namespace Assoc

/-- The keys rise strictly: the canonical form of an entry list. -/
abbrev Sorted {α : Type} (l : List (Nat × α)) : Prop := l.Pairwise fun x y => x.1 < y.1

/-- The value at a key. -/
def get? {α : Type} (a : Nat) : List (Nat × α) → Option α
  | [] => none
  | (k, v) :: t => if k = a then some v else get? a t

/-- The list with the value `v` at key `a`, in its place by rising key. -/
def put {α : Type} (a : Nat) (v : α) : List (Nat × α) → List (Nat × α)
  | [] => [(a, v)]
  | (k, w) :: t =>
    if a < k then (a, v) :: (k, w) :: t
    else if a = k then (a, v) :: t
    else (k, w) :: put a v t

/-- The list without key `a`. -/
def del {α : Type} (a : Nat) (l : List (Nat × α)) : List (Nat × α) := l.filter fun x => x.1 ≠ a

end Assoc

/-! ### Memory -/

namespace Memory

/-- The canonical form: indices strictly rising, none at or past `len`, and no word 0 listed. -/
abbrev wf (m : Memory) : Prop := Assoc.Sorted m.cells ∧ ∀ x ∈ m.cells, x.1 < m.len ∧ x.2 ≠ 0

/-- What an unlisted index holds: 0, by the zero fill of 20_memory.md rule R54 and by rule R53 past `len`. -/
def unlisted : Word := 0

/-- `MemRead(a, 1)` of rule R53: `M[a]` below `len`, and 0 at or past it, with no resize. -/
def read (m : Memory) (a : Nat) : Word :=
  if a < m.len then (Assoc.get? a m.cells).getD unlisted else 0

/-- The write of rule R54 once its capacity check has passed: `M` grows to `a + 1` words with zero fill where `a ≥ len`,
and `M[a] <- v`. -/
def store (m : Memory) (a : Nat) (v : Word) : Memory where
  cells := if v = unlisted then Assoc.del a m.cells else Assoc.put a v m.cells
  len := max m.len (a + 1)

/-- The memory that holds the words `ws` from index `a` on and is as `m` elsewhere. -/
def storeAll (m : Memory) (a : Nat) : List Word → Memory
  | [] => m
  | w :: ws => (m.store a w).storeAll (a + 1) ws

/-- The memory of a program: `M[a]` is its `a`-th word, and `len` their number (rules R51 and R52). -/
def ofWords (ws : List Word) : Memory := storeAll ⟨[], 0⟩ 0 ws

end Memory

/-- `MemWrite(a, 1, v)` of rule R54: an index at or past `MEM_CAP` raises `CapacityExceeded` detail 1. -/
def memWrite (cfg : Config) (m : Memory) (a : Nat) (v : Word) : Except Trap Memory :=
  if Config.fits cfg.memCap (a + 1) then .ok (m.store a v)
  else .error ⟨.capacityExceeded, 1, BitVec.ofNat 64 a⟩

/-- `checked(v)` of 00_scope.md rule R9; the detail of an `ArithmeticOverflow` is the caller's (60_exceptions.md rule
R231). -/
def checked (cfg : Config) (detail : Nat) (v : Int) : Except Trap Word :=
  if InWord v then .ok (BitVec.ofInt 64 v)
  else
    match cfg.overflowMode with
    | .fault => .error ⟨.arithmeticOverflow, detail, 0⟩
    | .wrap => .ok (BitVec.ofInt 64 v)

/-! ### Numbers of the control state -/

/-- The number of a status (10_state.md rule R30). -/
def Status.number : Status → Nat
  | .running => 0
  | .waiting => 1
  | .halted => 2
  | .faulted => 3

/-- The number of a fault (60_exceptions.md rule R230). -/
def FaultCode.number : FaultCode → Nat
  | .malformedProgram => 1
  | .invalidOpcode => 2
  | .invalidWrite => 3
  | .haltWithoutOutput => 4
  | .negativeReadAddress => 5
  | .invalidMode => 6
  | .fetchOutOfRange => 7
  | .invalidJumpTarget => 8
  | .arithmeticOverflow => 9
  | .capacityExceeded => 10
  | .runAfterHalt => 11
  | .runToHaltWaiting => 12
  | .orchestratorProtocol => 13

/-- `fault.code` as the number latched, 0 meaning none (rule R32). -/
def FaultRec.number (f : FaultRec) : Nat :=
  match f.code with
  | none => 0
  | some c => c.number

/-! ### Taking a fault. There is no handler and no return from a fault (60_exceptions.md rules R242 and R243); the only
stop a machine comes back from is Waiting, by a later `run` (`Core.startRun` in HostOps.lean). -/

/-- A fault of a core instance (40_execution_cycle.md rule R116; 60_exceptions.md rules R233 and R240): `status`, `busy`
and the latch change, and nothing else. -/
def Core.latch (t : Trap) (c : Core) : Core :=
  { c with status := .faulted, busy := false, fault := ⟨some t.code, t.detail, c.pc, t.addr⟩ }

/-- A fault of the instance in focus. -/
def raise (t : Trap) (s : State) : State := { s with core := s.core.latch t }

/-- A fault that concerns no instance, latched in the system fault record with `pc = 0` (60_exceptions.md rule R233). -/
def raiseSystem (t : Trap) (s : State) : State := { s with sysFault := ⟨some t.code, t.detail, 0, t.addr⟩ }

/-- A fault is latched somewhere, so the system has stopped (46_host_interface.md rule R191, 60_exceptions.md rule
R233). -/
abbrev State.stopped (s : State) : Prop :=
  s.sysFault.code ≠ none ∨ s.core.status = .faulted ∨ ∃ x ∈ s.parked, x.2.status = .faulted

/-- The fault a stopped system reports. -/
def State.latchedCode (s : State) : Option FaultCode :=
  match s.sysFault.code with
  | some c => some c
  | none =>
    if s.core.status = .faulted then s.core.fault.code
    else ((s.parked.find? fun x => x.2.status = .faulted).bind fun x => x.2.fault.code)

/-! ### Ending a cycle -/

/-- The control-flow directives of 40_execution_cycle.md rule R113. -/
inductive Directive where
  | advance
  | jump (t : Word)
  | suspend
  | halt (v : Word)
  deriving DecidableEq, Repr

/-- A core cycle is enabled (rule R111). -/
abbrev Core.enabled (c : Core) : Prop := c.busy = true ∧ c.status = .running

/-- Applying a directive of an instruction of `width` words (rules R112, R114, R115, R117 and R118). -/
def Core.apply (width : Nat) (c : Core) : Directive → Core
  | .advance => { c with pc := c.pc + BitVec.ofNat 64 width }
  | .jump t => { c with pc := t }
  | .suspend => { c with status := .waiting, busy := false, result := .waiting }
  | .halt v => { c with status := .halted, busy := false, result := .completed v }

/-- The end of a cycle (rule R112): the directive is applied to the core the instruction left, or the fault is latched
and nothing of the cycle is committed (rule R116). -/
def retire (width : Nat) (r : Except Trap (Core × Directive)) (s : State) : Host.Outcome State Fault Refusal :=
  match r with
  | .ok (c, d) => .next { s with core := c.apply width d }
  | .error t => .next (raise t s)

end Sys2Proof.Machine
end

