-- ==== Sys2Proof/Machine/Operands.lean ====
section
/-! DEFINITION. Reading and writing an operand in every addressing mode (20_memory.md rules R55 to R58). -/

namespace Sys2Proof.Machine

/-- `Resolve(mode, p)` of rule R56, asked for Position and Relative operands only: the index, which may be negative. -/
def resolve (cfg : Config) (c : Core) (q : Param) : Except Trap Word :=
  match q.mode with
  | .position => .ok q.word
  | .immediate => .ok q.word
  | .relative => checked cfg 2 (c.rb.toInt + q.word.toInt)

/-- `ReadParam(mode, p)` of rule R57. -/
def readParam (cfg : Config) (c : Core) (q : Param) : Except Trap Word :=
  if q.mode = .immediate then .ok q.word
  else do
    let a ← resolve cfg c q
    if a.toInt < 0 then .error ⟨.negativeReadAddress, 0, a⟩
    else .ok (c.mem.read a.toNat)

/-- The index a destination names, with the checks of `WriteParam` before its `MemWrite` (rule R58). -/
def destIndex (cfg : Config) (c : Core) (q : Param) : Except Trap Nat :=
  if q.mode = .immediate then .error ⟨.invalidWrite, 1, 0⟩
  else do
    let a ← resolve cfg c q
    if a.toInt < 0 then .error ⟨.invalidWrite, 2, a⟩
    else .ok a.toNat

/-- `WriteParam(mode, p, v)` of rule R58: the core with the word stored. -/
def writeParam (cfg : Config) (c : Core) (q : Param) (v : Word) : Except Trap Core := do
  let a ← destIndex cfg c q
  let m ← memWrite cfg c.mem a v
  .ok { c with mem := m }

/-- The shape of ADD, MUL, LT and EQ (rules R130, R131, R140 and R141): both sources in parameter order, the result,
the destination, and an advance. -/
def binary (cfg : Config) (f : Word → Word → Except Trap Word) (a b d : Param) (c : Core) :
    Except Trap (Core × Directive) := do
  let x ← readParam cfg c a
  let y ← readParam cfg c b
  let r ← f x y
  let c' ← writeParam cfg c d r
  .ok (c', .advance)

end Sys2Proof.Machine
end

