-- ==== Sys2Proof/Machine/Arithmetic.lean ====
section
/-! DEFINITION. ADD and MUL (41_arithmetic.md rules R130 to R132). -/

namespace Sys2Proof.Machine

/-- ADD (rule R130): the exact signed sum, brought back into `Word`. -/
def execAdd (a b d : Param) (s : State) : Host.Outcome State Fault Refusal :=
  retire 4 (binary s.cfg (fun x y => checked s.cfg 1 (x.toInt + y.toInt)) a b d s.core) s

/-- MUL (rule R131): the exact signed product, brought back into `Word`. -/
def execMul (a b d : Param) (s : State) : Host.Outcome State Fault Refusal :=
  retire 4 (binary s.cfg (fun x y => checked s.cfg 1 (x.toInt * y.toInt)) a b d s.core) s

end Sys2Proof.Machine
end

