-- ==== Sys2Proof/Machine/BaseHalt.lean ====
section
/-! DEFINITION. ARB and HLT (45_base_halt.md rules R170 and R171). -/

namespace Sys2Proof.Machine

/-- The effect of ARB (rule R170): a Relative operand is read with the old base. -/
def adjustBase (cfg : Config) (a : Param) (c : Core) : Except Trap (Core × Directive) := do
  let v ← readParam cfg c a
  let r ← checked cfg 3 (c.rb.toInt + v.toInt)
  .ok ({ c with rb := r }, .advance)

/-- The effect of HLT (rule R171): the run completes with the back of the output queue, which stays. -/
def haltWithLast (c : Core) : Except Trap (Core × Directive) :=
  match c.outq.getLast? with
  | none => .error ⟨.haltWithoutOutput, 0, 0⟩
  | some v => .ok (c, .halt v)

/-- ARB (rule R170). -/
def execArb (a : Param) (s : State) : Host.Outcome State Fault Refusal :=
  retire 2 (adjustBase s.cfg a s.core) s

/-- HLT (rule R171). -/
def execHlt (s : State) : Host.Outcome State Fault Refusal :=
  retire 1 (haltWithLast s.core) s

end Sys2Proof.Machine
end

