-- ==== Sys2Proof/Machine/InOut.lean ====
section
/-! DEFINITION. IN and OUT (44_io.md rules R160 to R162). -/

namespace Sys2Proof.Machine

/-- The effect of IN (rule R160): an empty queue suspends before the destination is looked at; the front is popped only
once it has been written. -/
def takeInput (cfg : Config) (d : Param) (c : Core) : Except Trap (Core × Directive) :=
  match c.inq with
  | [] => .ok (c, .suspend)
  | v :: rest => do
    let c' ← writeParam cfg c d v
    .ok ({ c' with inq := rest }, .advance)

/-- The effect of OUT (rule R161): the source is read before a full bounded queue is noticed. -/
def giveOutput (cfg : Config) (a : Param) (c : Core) : Except Trap (Core × Directive) := do
  let v ← readParam cfg c a
  if cfg.outDepth = some c.outq.length then .error ⟨.capacityExceeded, 2, 0⟩
  else .ok ({ c with outq := c.outq ++ [v] }, .advance)

/-- IN (rule R160). -/
def execInp (d : Param) (s : State) : Host.Outcome State Fault Refusal :=
  retire 2 (takeInput s.cfg d s.core) s

/-- OUT (rule R161). -/
def execOut (a : Param) (s : State) : Host.Outcome State Fault Refusal :=
  retire 2 (giveOutput s.cfg a s.core) s

end Sys2Proof.Machine
end

