-- ==== Sys2Proof/Machine/Flags.lean ====
section
/-! DEFINITION. The core has no status flags (10_state.md rule R22). What takes their place is the word a relation
writes to memory and the test a jump makes of a word. -/

namespace Sys2Proof.Machine

/-- The word a relation writes: 1 when it holds and 0 when it does not (42_relation.md rule R142). -/
def relationWord (holds : Bool) : Word := if holds then 1 else 0

/-- The relation of LT, on signed values (rules R140 and R142). -/
def lessThan (x y : Word) : Bool := x.toInt < y.toInt

/-- The relation of EQ (rule R141). -/
def equals (x y : Word) : Bool := x.toInt = y.toInt

/-- The condition of a jump is not zero (43_jump.md rule R152). -/
def notZero (c : Word) : Bool := c.toInt ≠ 0

/-- The condition of a jump is zero (rule R152). -/
def isZero (c : Word) : Bool := c.toInt = 0

end Sys2Proof.Machine
end

