-- ==== Sys2Proof/Machine/Jump.lean ====
section
/-! DEFINITION. JNZ and JZ (43_jump.md rules R150 to R152). -/

namespace Sys2Proof.Machine

/-- The shape of both jumps: condition and target are read, in that order and whether or not the jump is taken; a
taken jump to a negative target raises `InvalidJumpTarget` (rules R150 and R151). -/
def jumpWhen (taken : Word → Bool) (cfg : Config) (cond target : Param) (c : Core) :
    Except Trap (Core × Directive) := do
  let x ← readParam cfg c cond
  let t ← readParam cfg c target
  if taken x then
    if t.toInt < 0 then .error ⟨.invalidJumpTarget, 0, t⟩
    else .ok (c, .jump t)
  else .ok (c, .advance)

/-- JNZ (rule R150): jumps when the condition is not 0. -/
def execJnz (cond target : Param) (s : State) : Host.Outcome State Fault Refusal :=
  retire 3 (jumpWhen notZero s.cfg cond target s.core) s

/-- JZ (rule R151): jumps when the condition is 0. -/
def execJz (cond target : Param) (s : State) : Host.Outcome State Fault Refusal :=
  retire 3 (jumpWhen isZero s.cfg cond target s.core) s

end Sys2Proof.Machine
end

