-- ==== Sys2Proof/Machine/Relation.lean ====
section
/-! DEFINITION. LT and EQ (42_relation.md rules R140 to R142). -/

namespace Sys2Proof.Machine

/-- LT (rule R140): 1 when the first source is less than the second as a signed integer, else 0. -/
def execLt (a b d : Param) (s : State) : Host.Outcome State Fault Refusal :=
  retire 4 (binary s.cfg (fun x y => .ok (relationWord (lessThan x y))) a b d s.core) s

/-- EQ (rule R141): 1 when the sources are equal, else 0. -/
def execEq (a b d : Param) (s : State) : Host.Outcome State Fault Refusal :=
  retire 4 (binary s.cfg (fun x y => .ok (relationWord (equals x y))) a b d s.core) s

end Sys2Proof.Machine
end

