-- ==== Sys2Proof/WellFormed.lean ====
section
/-! DEFINITION. Well-formed instructions: those whose destination can be written at all. The decoder does not make
this check (30_encoding.md rule R95); an ill-formed instruction decodes and raises `InvalidWrite` when it writes. -/

namespace Sys2Proof

/-- The parameter an instruction writes through, where it has one (rule R85, the role column). -/
def Instr.dst? : Instr → Option Param
  | .add _ _ d => some d
  | .mul _ _ d => some d
  | .inp d => some d
  | .out _ => none
  | .jnz _ _ => none
  | .jz _ _ => none
  | .lt _ _ d => some d
  | .eq _ _ d => some d
  | .arb _ => none
  | .hlt => none

/-- The destination, where there is one, is Position or Relative (41_arithmetic.md rule R130: "Position or Relative
for the destination"). Of the 136 legal instruction words, 37 name an instruction that is not (rule R97). -/
abbrev Instr.WellFormed (i : Instr) : Prop := ∀ d ∈ i.dst?, d.mode ≠ .immediate

end Sys2Proof
end

