-- ==== Sys2Proof/Decode.lean ====
section
/-! DEFINITION. The decoder (30_encoding.md rules R80 to R98), total on every sequence of words and refusing by name,
and after it the encoder written from the same table. -/

namespace Sys2Proof

/-- Why a sequence of words is no instruction; one name per fault of `Decode` (rule R88). -/
inductive DecodeError where
  /-- `FetchOutOfRange`: only `present` words of the instruction lie below the memory's length (rule R92). -/
  | fetchOutOfRange (present : Nat)
  /-- `InvalidOpcode`: the instruction word `w` is negative (rule R84) or its opcode is not in the table (rule R89). -/
  | invalidOpcode (w : Word)
  /-- `InvalidMode`: parameter `detail` of the instruction word `w` has a mode digit of 3 to 9 (rule R90), or, with
  `detail = 0`, a digit above the parameters is not 0 (rule R91). -/
  | invalidMode (detail : Nat) (w : Word)
  deriving DecidableEq, Repr

/-- An instruction format of rule R86, by the number of its operands, with the instruction it builds. -/
inductive Form where
  | f0 (i : Instr)
  | f1 (mk : Param → Instr)
  | f2 (mk : Param → Param → Instr)
  | f3 (mk : Param → Param → Param → Instr)

/-- The opcode table (rule R85): each opcode's format and instruction; any other opcode has none (rule R89). -/
def formOf (opcode : Nat) : Option Form :=
  match opcode with
  | 1 => some (.f3 .add)
  | 2 => some (.f3 .mul)
  | 3 => some (.f1 .inp)
  | 4 => some (.f1 .out)
  | 5 => some (.f2 .jnz)
  | 6 => some (.f2 .jz)
  | 7 => some (.f3 .lt)
  | 8 => some (.f3 .eq)
  | 9 => some (.f1 .arb)
  | 99 => some (.f0 .hlt)
  | _ => none

/-- `OPERANDS` of rule R88: the operand count of a format. -/
def Form.operands : Form → Nat
  | .f0 _ => 0
  | .f1 _ => 1
  | .f2 _ => 2
  | .f3 _ => 3

/-- `digit_j(n)` of rule R9: the decimal digit `j` of `n`, digit 0 the least significant. -/
def digit (j n : Nat) : Nat := n / 10 ^ j % 10

/-- The meaning of a mode digit (rule R83); 3 to 9 have none. -/
def modeOfDigit (d : Nat) : Option Mode :=
  match d with
  | 0 => some .position
  | 1 => some .immediate
  | 2 => some .relative
  | _ => none

/-- Parameter `j` (from 1) of the instruction word `w`: its mode is digit `j - 1` of `w div 100` (rule R82), and its
word is the parameter word `p` as stored (rule R87). -/
def paramOf (w : Word) (j : Nat) (p : Word) : Except DecodeError Param :=
  match modeOfDigit (digit (j - 1) (w.toNat / 100)) with
  | some m => .ok ⟨m, p⟩
  | none => .error (.invalidMode j w)

/-- Rule R91: with `STRICT_MODE_DIGITS`, no digit above the `n` mode digits may be non-zero. -/
def checkStray (strict : Bool) (w : Word) (n : Nat) (i : Instr) : Except DecodeError Instr :=
  if strict ∧ w.toNat / 100 / 10 ^ n ≠ 0 then .error (.invalidMode 0 w) else .ok i

/-- The parameters of a format, in parameter order, and then the check for stray digits (rule R88, the loop and what
follows it). `present` is the number of words that lie below the memory's length. -/
def decodeForm (strict : Bool) (w : Word) (present : Nat) : Form → List Word → Except DecodeError Instr
  | .f0 i, _ => checkStray strict w 0 i
  | .f1 mk, p₁ :: _ => do
    let a ← paramOf w 1 p₁
    checkStray strict w 1 (mk a)
  | .f2 mk, p₁ :: p₂ :: _ => do
    let a ← paramOf w 1 p₁
    let b ← paramOf w 2 p₂
    checkStray strict w 2 (mk a b)
  | .f3 mk, p₁ :: p₂ :: p₃ :: _ => do
    let a ← paramOf w 1 p₁
    let b ← paramOf w 2 p₂
    let c ← paramOf w 3 p₃
    checkStray strict w 3 (mk a b c)
  | .f1 _, _ => .error (.fetchOutOfRange present)
  | .f2 _, _ => .error (.fetchOutOfRange present)
  | .f3 _, _ => .error (.fetchOutOfRange present)

/-- `Decode` of rule R88, on the words that lie below the memory's length from `pc` on; the faults are raised in the
order the rule writes them. Words after the instruction's last are not looked at (rule R94). -/
def decode (strict : Bool) (ws : List Word) : Except DecodeError Instr :=
  match ws with
  | [] => .error (.fetchOutOfRange 0)
  | w :: ps =>
    if w.toInt < 0 then .error (.invalidOpcode w)
    else
      match formOf (w.toNat % 100) with
      | none => .error (.invalidOpcode w)
      | some f => decodeForm strict w ws.length f ps

/-- The encoded width of an instruction in words, its opcode word included (rule R85; 1 for Halt, decision D39). -/
def Instr.width : Instr → Nat
  | .add _ _ _ => 4
  | .mul _ _ _ => 4
  | .inp _ => 2
  | .out _ => 2
  | .jnz _ _ => 3
  | .jz _ _ => 3
  | .lt _ _ _ => 4
  | .eq _ _ _ => 4
  | .arb _ => 2
  | .hlt => 1

/-- The digit of a mode (rule R83). -/
def Mode.digit : Mode → Nat
  | .position => 0
  | .immediate => 1
  | .relative => 2

/-- Format F1 of rule R86: the instruction word `opcode + 100*A` and its parameter word. -/
def encode1 (opcode : Nat) (a : Param) : List Word :=
  [BitVec.ofNat 64 (opcode + 100 * a.mode.digit), a.word]

/-- Format F2 of rule R86: the instruction word `opcode + 100*A + 1000*B` and its parameter words. -/
def encode2 (opcode : Nat) (a b : Param) : List Word :=
  [BitVec.ofNat 64 (opcode + 100 * a.mode.digit + 1000 * b.mode.digit), a.word, b.word]

/-- Format F3 of rule R86: the instruction word `opcode + 100*A + 1000*B + 10000*C` and its parameter words. -/
def encode3 (opcode : Nat) (a b c : Param) : List Word :=
  [BitVec.ofNat 64 (opcode + 100 * a.mode.digit + 1000 * b.mode.digit + 10000 * c.mode.digit), a.word, b.word, c.word]

/-- The words of an instruction (rules R85 and R86). -/
def encode : Instr → List Word
  | .add a b d => encode3 1 a b d
  | .mul a b d => encode3 2 a b d
  | .inp d => encode1 3 d
  | .out a => encode1 4 a
  | .jnz c t => encode2 5 c t
  | .jz c t => encode2 6 c t
  | .lt a b d => encode3 7 a b d
  | .eq a b d => encode3 8 a b d
  | .arb a => encode1 9 a
  | .hlt => [99]

/-- The four words (the longest instruction) of which the number `w` gives the low `nbits` bits, the first word's
least significant bit being bit 0, every other bit 0. -/
def tableWords (nbits w : Nat) : List Word :=
  [0, 1, 2, 3].map fun j => BitVec.ofNat 64 (w % 2 ^ nbits / 2 ^ (64 * j))

/-- The instruction the decoder reads from an instruction whose bits are `w`, numbered as spec/opcode_table.json
numbers them, with the default `STRICT_MODE_DIGITS = true` (log entry 6). -/
def decodeTableWord (nbits w : Nat) : Option Instr :=
  match decode true (tableWords nbits w) with
  | .ok i => some i
  | .error _ => none

end Sys2Proof
end

