-- ==== Sys2Proof/Machine/Fetch.lean ====
section
/-! DEFINITION. Fetching an instruction from memory (30_encoding.md rules R88 and R92; 20_memory.md rule R67). -/

namespace Sys2Proof.Machine

/-- The words from `pc` on that lie below `len`, four at most, the longest instruction. The fetch takes them from `M`
itself and never past `len` (rule R88; 90_conflicts.md C7). -/
def Core.fetchWords (c : Core) : List Word :=
  (List.range (min 4 (c.mem.len - c.pc.toNat))).map fun j => c.mem.read (c.pc.toNat + j)

/-- The fault of a decode error at `pc` (60_exceptions.md rule R230). The first index of the instruction that is not
below `len` is `pc` plus the number of its words that are (rule R92). DESIGN CHOICE: an index of 2^63 or more, which is no
`Word` although `fault.addr` is one (rule R32), is latched as the word congruent to it modulo 2^64 (log entry 12). -/
def decodeTrap (pc : UWord) : DecodeError → Trap
  | .fetchOutOfRange present => ⟨.fetchOutOfRange, 0, pc + BitVec.ofNat 64 present⟩
  | .invalidOpcode w => ⟨.invalidOpcode, 0, w⟩
  | .invalidMode detail w => ⟨.invalidMode, detail, w⟩

/-- `Decode()` of rule R88 on the core's own memory and `pc`. -/
def Core.decodeNext (cfg : Config) (c : Core) : Except Trap Instr :=
  match decode cfg.strictModeDigits c.fetchWords with
  | .ok i => .ok i
  | .error e => .error (decodeTrap c.pc e)

end Sys2Proof.Machine
end

