-- ==== Sys2Proof/Machine/Loader.lean ====
section
/-! DEFINITION. The program loader `Load(text)` (46_host_interface.md rule R180). -/

namespace Sys2Proof.Machine

/-- Whitespace around a program text: space, tab, CR, LF (rule R180). -/
def isBlank (c : Char) : Bool := c.toNat = 32 || c.toNat = 9 || c.toNat = 13 || c.toNat = 10

/-- The text without leading and trailing whitespace. -/
def trimBlanks (text : ProgramText) : ProgramText :=
  ((text.dropWhile isBlank).reverse.dropWhile isBlank).reverse

/-- The text split at every comma: `k` commas give `k + 1` tokens, empty ones included. -/
def splitCommas : ProgramText → List ProgramText
  | [] => [[]]
  | c :: cs =>
    if c = ',' then [] :: splitCommas cs
    else
      match splitCommas cs with
      | [] => [[c]]
      | t :: ts => (c :: t) :: ts

/-- A decimal digit `[0-9]`. -/
def isDigitChar (c : Char) : Bool := 48 ≤ c.toNat && c.toNat ≤ 57

/-- The value of a run of decimal digits. -/
def digitsValue (ds : List Char) : Nat := ds.foldl (fun n c => 10 * n + (c.toNat - 48)) 0

/-- The decimal value of a token that matches `-?[0-9]+`; none for any other. -/
def tokenInt (s : List Char) : Option Int :=
  match s with
  | [] => none
  | c :: ds =>
    if c = '-' then
      if ds ≠ [] ∧ ds.all isDigitChar then some (-(digitsValue ds : Int)) else none
    else if (c :: ds).all isDigitChar then some (digitsValue (c :: ds) : Int)
    else none

/-- The words of the tokens, the first of them having the number `m`; a token that is no integer in `Word` raises
`MalformedProgram` with its number. -/
def loadTokens (m : Nat) : List ProgramText → Except Trap (List Word)
  | [] => .ok []
  | s :: rest =>
    match tokenInt s with
    | none => .error ⟨.malformedProgram, m, 0⟩
    | some v =>
      if InWord v then do
        let ws ← loadTokens (m + 1) rest
        .ok (BitVec.ofInt 64 v :: ws)
      else .error ⟨.malformedProgram, m, 0⟩

/-- `Load(text)` (rule R180): the program words in text order, or the loader's fault. A text longer than `MEM_CAP` raises
`CapacityExceeded` detail 4, after every token has been read. -/
def load (cfg : Config) (text : ProgramText) : Except Trap (List Word) := do
  let ws ← loadTokens 1 (splitCommas (trimBlanks text))
  if Config.fits cfg.memCap ws.length then .ok ws
  else .error ⟨.capacityExceeded, 4, BitVec.ofNat 64 ws.length⟩

end Sys2Proof.Machine
end

