-- ==== Sys2Proof/Machine/Permutation.lean ====
section
/-! DEFINITION. The permutation generator (47_permutation.md rules R200 to R205). -/

namespace Sys2Proof.Machine

/-- `A` with its elements at `x` and `y` exchanged. -/
def swapAt (l : List Word) (x y : Nat) : List Word := (l.set x (l.getD y 0)).set y (l.getD x 0)

/-- `start(values)` (rule R201), allowed in every `gen_state`; more than `PERM_K_MAX` values raise `CapacityExceeded`
detail 5. -/
def genStart (values : List Word) : Except Trap Generator :=
  if values.length ≤ permKMax then
    .ok
      { arrangement := values
        counters := List.replicate values.length 0
        depth := 0
        first := true
        genState := .generating }
  else .error ⟨.capacityExceeded, 5, BitVec.ofNat 64 values.length⟩

/-- The loop of `next()` (rule R202). Every turn that does not return advances the depth pointer, so `k + 1` turns always
reach a return; `fuel` counts them. -/
def genLoop : Nat → Generator → Generator × Option (List Word)
  | 0, g => ({ g with genState := .done }, none)
  | fuel + 1, g =>
    if g.k ≤ g.depth then ({ g with genState := .done }, none)
    else if g.counters.getD g.depth 0 < g.depth then
      let a :=
        if g.depth % 2 = 0 then swapAt g.arrangement 0 g.depth
        else swapAt g.arrangement (g.counters.getD g.depth 0) g.depth
      ({ g with
          arrangement := a
          counters := g.counters.set g.depth (g.counters.getD g.depth 0 + 1)
          depth := 0 }, some a)
    else genLoop fuel { g with counters := g.counters.set g.depth 0, depth := g.depth + 1 }

/-- `next()` (rule R202) in `gen_state` Generating or Done; while Idle it has no move, which its callers refuse. -/
def genNext (g : Generator) : Generator × Option (List Word) :=
  match g.genState with
  | .idle => (g, none)
  | .done => (g, none)
  | .generating =>
    if g.first then ({ g with first := false }, some g.arrangement)
    else genLoop (g.k + 1) g

end Sys2Proof.Machine
end

