-- ==== Sys2Proof/Machine/HostOps.lean ====
section
/-! DEFINITION. The operations of the host on core instances (46_host_interface.md rules R181 to R191) and on the
permutation generator (47_permutation.md rule R200). -/

namespace Sys2Proof.Machine

/-! ### On one instance -/

/-- A new instance with the program words `ws` (rule R181): the reset state with `M <- words`. -/
def Core.ofProgram (ws : List Word) : Core := { Core.reset with mem := Memory.ofWords ws }

/-- A new instance with one value queued (rule R182). -/
def Core.ofProgramWithInput (ws : List Word) (v : Word) : Core := { Core.ofProgram ws with inq := [v] }

/-- `push_input(value)` (rule R183). -/
def Core.pushInput (cfg : Config) (v : Word) (c : Core) : Except Trap Core :=
  if cfg.inDepth = some c.inq.length then .error ⟨.capacityExceeded, 3, 0⟩
  else .ok { c with inq := c.inq ++ [v] }

/-- The value `pop_output()` returns (rule R184). -/
def Core.frontOutput (c : Core) : Option Word := c.outq.head?

/-- The instance after `pop_output()` (rule R184): the front is gone, or nothing changed when there was none. -/
def Core.popOutput (c : Core) : Core := { c with outq := c.outq.tail }

/-- The beginning of `run()` (rule R185): on a Halted machine it raises `RunAfterHalt`; a Waiting machine is resumed the
same way, by a fresh decode at `pc` (40_execution_cycle.md rule R120). -/
def Core.startRun (c : Core) : Except Trap Core :=
  if c.status = .halted then .error ⟨.runAfterHalt, 0, 0⟩
  else .ok { c with status := .running, busy := true }

/-- The instance `clone()` creates (rule R187). -/
def Core.cloned (c : Core) : Core := { c with busy := false }

/-- The precondition of the operations on an instance (rule R189): `busy = 0` and status not Faulted. -/
abbrev Core.hostMayAct (c : Core) : Prop := c.busy = false ∧ c.status ≠ .faulted

/-! ### On the whole machine -/

/-- The parked instances together with the one in focus. -/
def State.unfocused (s : State) : List (Nat × Core) :=
  match s.focus with
  | none => s.parked
  | some g => Assoc.put g s.core s.parked

/-- The state with the instance of handle `h` in focus, where there is one. -/
def State.focusOn (h : Nat) (s : State) : Option State :=
  if s.focus = some h then some s
  else
    match Assoc.get? h s.parked with
    | none => none
    | some c => some { s with core := c, focus := some h, parked := Assoc.del h s.unfocused }

/-- The state with one more instance, under the next handle (rules R181, R182, R187 and 60_exceptions.md rule R250). -/
def State.addInstance (c : Core) (s : State) : State :=
  { s with parked := Assoc.put s.nextHandle c s.parked, nextHandle := s.nextHandle + 1 }

/-- The state without the instance of handle `h` (rule R188). -/
def State.removeInstance (h : Nat) (s : State) : State :=
  if s.focus = some h then { s with core := Core.reset, focus := none }
  else { s with parked := Assoc.del h s.parked }

/-- An operation on the instance of handle `h`: the host may act on it, and it is put in focus first. -/
def onInstance (h : Nat) (s : State) (k : State → Host.Outcome State Fault Refusal) :
    Host.Outcome State Fault Refusal :=
  match s.focusOn h with
  | none => .refused (.noSuchInstance h)
  | some s' => if s'.core.hostMayAct then k s' else .refused .operationNotEnabled

/-- The state after an operation on the instance in focus that may raise a fault on it: `f` is what it did to the
instance and `g` what else follows when it raised none. -/
def commit (r : Except Trap Core) (g : State → State) (s : State) : Host.Outcome State Fault Refusal :=
  match r with
  | .error t => .next (raise t s)
  | .ok c => .next (g { s with core := c })

/-- `new` and `new_with_input`, once the loader has answered: its fault concerns no instance (60_exceptions.md rule
R233). -/
def createFrom (r : Except Trap (List Word)) (mk : List Word → Core) (s : State) :
    Host.Outcome State Fault Refusal :=
  match r with
  | .error t => .next (raiseSystem t s)
  | .ok ws => .next { s.addInstance (mk ws) with reply := .handle s.nextHandle }

/-- `new(program_text)` (rule R181). -/
def hostNew (text : ProgramText) (s : State) : Host.Outcome State Fault Refusal :=
  createFrom (load s.cfg text) Core.ofProgram s

/-- `new_with_input(program_text, value)` (rule R182). -/
def hostNewWithInput (text : ProgramText) (v : Word) (s : State) : Host.Outcome State Fault Refusal :=
  createFrom (load s.cfg text) (fun ws => Core.ofProgramWithInput ws v) s

/-- `push_input(value)` (rule R183). -/
def hostPushInput (h : Nat) (v : Word) (s : State) : Host.Outcome State Fault Refusal :=
  onInstance h s fun s => commit (s.core.pushInput s.cfg v) (fun s => { s with reply := .done }) s

/-- `pop_output()` (rule R184). -/
def hostPopOutput (h : Nat) (s : State) : Host.Outcome State Fault Refusal :=
  onInstance h s fun s => .next { s with core := s.core.popOutput, reply := .output s.core.frontOutput }

/-- The call of `run()` (rule R185). The cycles follow, one a step, until `busy = 0`; `hostReturn` ends it. -/
def hostRun (h : Nat) (s : State) : Host.Outcome State Fault Refusal :=
  onInstance h s fun s => commit s.core.startRun (fun s => { s with call := .run }) s

/-- The call of `run_to_halt()` (rule R186). -/
def hostRunToHalt (h : Nat) (s : State) : Host.Outcome State Fault Refusal :=
  onInstance h s fun s => commit s.core.startRun (fun s => { s with call := .runToHalt }) s

/-- The return of a call whose run has ended (rules R185 and R186): `run` returns the result, `run_to_halt` the value of
a Completed result, and a Waiting one raises `RunToHaltWaiting` on the instance. -/
def hostReturn (s : State) : Host.Outcome State Fault Refusal :=
  match s.call with
  | .none => .refused .noEnabledStep
  | .run => .next { s with call := .none, reply := .runResult s.core.result }
  | .runToHalt =>
    match s.core.result with
    | .none => .refused .noEnabledStep
    | .completed v => .next { s with call := .none, reply := .value v }
    | .waiting => .next (raise ⟨.runToHaltWaiting, 0, 0⟩ s)

/-- `clone()` (rule R187). -/
def hostClone (h : Nat) (s : State) : Host.Outcome State Fault Refusal :=
  onInstance h s fun s => .next { s.addInstance s.core.cloned with reply := .handle s.nextHandle }

/-- Dropping an instance (rule R188). -/
def hostDrop (h : Nat) (s : State) : Host.Outcome State Fault Refusal :=
  onInstance h s fun s => .next { s.removeInstance h with reply := .done }

/-- The generator's `start` (47_permutation.md rule R201). -/
def hostGenStart (values : List Word) (s : State) : Host.Outcome State Fault Refusal :=
  match genStart values with
  | .error t => .next (raiseSystem t s)
  | .ok g => .next { s with gen := g, reply := .done }

/-- The generator's `next` (47_permutation.md rule R202). -/
def hostGenNext (s : State) : Host.Outcome State Fault Refusal :=
  if s.gen.genState = .idle then .refused .generatorIdle
  else .next { s with gen := (genNext s.gen).1, reply := .arrangement (genNext s.gen).2 }

end Sys2Proof.Machine
end

