-- ==== Sys2Proof/Machine/Orchestration.lean ====
section
/-! DEFINITION. The pipeline orchestrator, a controller that uses only the host's operations (48_orchestrator.md rules
R210 to R217). Each of its actions is one step of the machine. -/

namespace Sys2Proof.Machine

/-- The call (rule R210): `k = 0` and `k > PERM_K_MAX` raise `OrchestratorProtocol` detail 2. Otherwise the program is
loaded, the generator started and the search begun, with `best` None (rule R215). -/
def orchestrate (text : ProgramText) (values : List Word) (s : State) : Host.Outcome State Fault Refusal :=
  if values.length = 0 ∨ permKMax < values.length then
    .next (raiseSystem ⟨.orchestratorProtocol, 2, BitVec.ofNat 64 values.length⟩ s)
  else
    match load s.cfg text with
    | .error t => .next (raiseSystem t s)
    | .ok ws =>
      match genStart values with
      | .error t => .next (raiseSystem t s)
      | .ok g =>
        .next
          { s with
            gen := g
            orch :=
              { phase := .next
                program := ws
                values := values
                machines := []
                index := 0
                carried := 0
                best := none } }

/-- The machines of one arrangement (rule R211): one fresh instance per configuration value, which is its first input. -/
def buildMachines (ws : List Word) : List Word → State → State
  | [], s => s
  | p :: ps, s => buildMachines ws ps (s.addInstance (Core.ofProgramWithInput ws p))

/-- The machines of an arrangement that has finished are dropped (rule R216). -/
def dropMachines : List Nat → State → State
  | [], s => s
  | h :: hs, s => dropMachines hs (s.removeInstance h)

/-- The next arrangement (rules R211 and R215): its pipeline is built, with `carried <- 0` and `i <- 0`; after the last
one the answer is `best`. -/
def orchNext (s : State) : Host.Outcome State Fault Refusal :=
  match genNext s.gen with
  | (g, none) =>
    .next { s with gen := g, orch := { s.orch with phase := .idle }, reply := .answer s.orch.best }
  | (g, some p) =>
    .next
      { buildMachines s.orch.program p s with
        gen := g
        orch :=
          { s.orch with
            phase := .feed
            machines := (List.range p.length).map (s.nextHandle + ·)
            index := 0
            carried := 0 } }

/-- The handle of `machine[i]`. -/
def Orchestrator.machine (o : Orchestrator) : Nat := o.machines.getD o.index 0

/-- The orchestrator goes on in another phase. -/
def State.toPhase (p : OrchPhase) (s : State) : State := { s with orch := { s.orch with phase := p } }

/-- `machine[i].push_input(carried)` (rule R212). -/
def orchFeed (s : State) : Host.Outcome State Fault Refusal :=
  onInstance s.orch.machine s fun s => commit (s.core.pushInput s.cfg s.orch.carried) (State.toPhase .call) s

/-- The call of `machine[i].run()` (rule R212). -/
def orchCall (s : State) : Host.Outcome State Fault Refusal :=
  onInstance s.orch.machine s fun s => commit s.core.startRun (State.toPhase .collect) s

/-- `best` after the final result `f` of an arrangement (rule R215): signed comparison, ties keep the first. -/
def bestAfter (best : Option Word) (f : Word) : Option Word :=
  match best with
  | none => some f
  | some b => if b.toInt < f.toInt then some f else some b

/-- A Waiting result (rule R213): the single value in the output queue becomes the carried value, and the next machine
is fed; any other number of values raises `OrchestratorProtocol` detail 1. -/
def orchWaiting (s : State) : State :=
  match s.core.outq with
  | [v] =>
    { s with
      core := s.core.popOutput
      orch :=
        { s.orch with
          phase := .feed
          carried := v
          index := (s.orch.index + 1) % s.orch.machines.length } }
  | q => raiseSystem ⟨.orchestratorProtocol, 1, BitVec.ofNat 64 q.length⟩ s

/-- A `Completed(v)` result (rule R214): the carried value becomes `v`; when machine `k - 1` completes, `v` is the
arrangement's final result, and otherwise the next machine is fed. -/
def orchCompleted (v : Word) (s : State) : State :=
  if s.orch.index + 1 = s.orch.machines.length then
    { dropMachines s.orch.machines s with
      orch := { s.orch with phase := .next, carried := v, machines := [], best := bestAfter s.orch.best v } }
  else { s with orch := { s.orch with phase := .feed, carried := v, index := s.orch.index + 1 } }

/-- What the run of `machine[i]` returned (rules R212 to R214). -/
def orchCollect (s : State) : Host.Outcome State Fault Refusal :=
  onInstance s.orch.machine s fun s =>
    match s.core.result with
    | .none => .refused .noEnabledStep
    | .waiting => .next (orchWaiting s)
    | .completed v => .next (orchCompleted v s)

end Sys2Proof.Machine
end

