-- ==== Sys2Proof/Machine/Agents.lean ====
section
/-! DEFINITION. One step of each agent: the core's cycle, the orchestrator and the host (40_execution_cycle.md rules
R110 to R112). -/

namespace Sys2Proof.Machine

/-- One decode-execute cycle of the core in focus (rule R112). -/
def cycle (s : State) : Host.Outcome State Fault Refusal :=
  match s.core.decodeNext s.cfg with
  | .error t => .next (raise t s)
  | .ok i => exec i s

/-- One host operation (46_host_interface.md rule R189). -/
def perform (op : HostOp) (s : State) : Host.Outcome State Fault Refusal :=
  match op with
  | .new text => hostNew text s
  | .newWithInput text v => hostNewWithInput text v s
  | .pushInput h v => hostPushInput h v s
  | .popOutput h => hostPopOutput h s
  | .run h => hostRun h s
  | .runToHalt h => hostRunToHalt h s
  | .clone h => hostClone h s
  | .drop h => hostDrop h s
  | .genStart values => hostGenStart values s
  | .genNext => hostGenNext s
  | .orchestrate text values => orchestrate text values s

/-- The host's next operation, taken from the script. -/
def hostNext (s : State) : Host.Outcome State Fault Refusal :=
  match s.script with
  | [] => .refused .noEnabledStep
  | op :: rest => perform op { s with script := rest }

/-- One action of the orchestrator in its phase; while it is idle the host itself acts. -/
def orchStep (s : State) : Host.Outcome State Fault Refusal :=
  match s.orch.phase with
  | .idle => hostNext s
  | .next => orchNext s
  | .feed => orchFeed s
  | .call => orchCall s
  | .collect => orchCollect s

/-- What the host side does while no core runs: a call that has ended returns, a search in progress goes on, and
otherwise the script's next operation is performed. -/
def hostStep (s : State) : Host.Outcome State Fault Refusal :=
  match s.call with
  | .none => orchStep s
  | .run => hostReturn s
  | .runToHalt => hostReturn s

/-- Which agent steps (rules R110, R111 and R191): none once a fault is latched, the core while its run is in progress,
and the host side otherwise; the host is blocked while `busy = 1` (rule R190). -/
def agentStep (s : State) : Host.Outcome State Fault Refusal :=
  if s.stopped then .fault (.systemStopped s.latchedCode)
  else if s.core.enabled then cycle s
  else if s.core.busy then .refused .noEnabledStep
  else hostStep s

/-- The core with the instruction words `ws` at its program counter, in a run, with no fault latched. -/
def Core.placed (ws : List Word) (c : Core) : Core :=
  { c with mem := c.mem.storeAll c.pc.toNat ws, status := .running, busy := true, fault := .clear }

/-- The state with the instruction words `ws` where the next step fetches: at `pc`, in a run, and with no fault latched
anywhere, since a stopped system fetches nothing (log entry 6). -/
def placeInstruction (ws : List Word) (s : State) : State :=
  { s with
    core := s.core.placed ws
    parked := s.parked.filter fun x => x.2.status ≠ .faulted
    sysFault := .clear }

end Sys2Proof.Machine
end

