-- ==== Sys2Proof/Machine/Step.lean ====
section
/-! DEFINITION. The step of the machine and the placing of one instruction for the host's check. -/

namespace Sys2Proof.Machine

/-- One atomic step of the machine: of the one agent that is enabled (40_execution_cycle.md rules R110 to R112). -/
def step (s : State) : Host.Outcome State Fault Refusal := agentStep s

/-- `s` with the instruction of the `nbits` bits `w` stored where the next step fetches it, and a run in progress. -/
def State.withFetchWord (s : State) (nbits w : Nat) : State := placeInstruction (tableWords nbits w) s

end Sys2Proof.Machine
end

