-- ==== Sys2Proof/Safety.lean ====
section
/-! DEFINITION. The terms of the claims: what an operand is, when it faults, what a safe step is, and the invariant of
the machine. The operand relations are written from 20_memory.md rules R55 to R58, not from the functions the meanings
call. -/

namespace Sys2Proof.Machine

/-! ### Memory as the spec's sequence -/

/-- `M` of 10_state.md rule R28 as the sequence of its `len` words. -/
def Memory.words (m : Memory) : List Word := (List.range m.len).map fun a => (Assoc.get? a m.cells).getD 0

/-! ### Operands -/

/-- `r` is the mathematical integer `v` brought back into `Word` (00_scope.md rule R9): `v` itself where it lies in
`Word`, and with `OVERFLOW_MODE = wrap` the one word congruent to it modulo 2^64. -/
def Narrows (cfg : Config) (v : Int) (r : Word) : Prop :=
  if InWord v then r.toInt = v else cfg.overflowMode = .wrap ∧ (r.toInt - v) % 18446744073709551616 = 0

/-- The value `v` raises `ArithmeticOverflow` (rule R9). -/
def Overflows (cfg : Config) (v : Int) : Prop := ¬ InWord v ∧ cfg.overflowMode = .fault

/-- The index `a` of a Position or Relative operand (rule R56); an Immediate operand has none. -/
def Resolves (cfg : Config) (c : Core) (q : Param) (a : Word) : Prop :=
  match q.mode with
  | .position => a = q.word
  | .immediate => False
  | .relative => Narrows cfg (c.rb.toInt + q.word.toInt) a

/-- The source operand `q` has the value `v` (rules R53 and R57). -/
def Source (cfg : Config) (c : Core) (q : Param) (v : Word) : Prop :=
  (q.mode = .immediate ∧ v = q.word) ∨
    ∃ a, Resolves cfg c q a ∧ 0 ≤ a.toInt ∧ v = c.mem.words.getD a.toInt.toNat 0

/-- Reading the source operand `q` raises the fault `t` (rules R56, R57 and R231). -/
def SourceFaults (cfg : Config) (c : Core) (q : Param) (t : Trap) : Prop :=
  (q.mode = .relative ∧ Overflows cfg (c.rb.toInt + q.word.toInt) ∧ t = ⟨.arithmeticOverflow, 2, 0⟩) ∨
    ∃ a, Resolves cfg c q a ∧ a.toInt < 0 ∧ t = ⟨.negativeReadAddress, 0, a⟩

/-- The destination operand `q` names the index `n`, and a write there fits in `MEM_CAP` (rules R54 and R58). -/
def Destination (cfg : Config) (c : Core) (q : Param) (n : Nat) : Prop :=
  ∃ a, Resolves cfg c q a ∧ 0 ≤ a.toInt ∧ n = a.toInt.toNat ∧ ∀ b ∈ cfg.memCap, n < b

/-- Writing the destination operand `q` raises the fault `t` (rules R54, R56, R58 and R231). -/
def DestinationFaults (cfg : Config) (c : Core) (q : Param) (t : Trap) : Prop :=
  (q.mode = .immediate ∧ t = ⟨.invalidWrite, 1, 0⟩) ∨
    (q.mode = .relative ∧ Overflows cfg (c.rb.toInt + q.word.toInt) ∧ t = ⟨.arithmeticOverflow, 2, 0⟩) ∨
    ∃ a, Resolves cfg c q a ∧
      ((a.toInt < 0 ∧ t = ⟨.invalidWrite, 2, a⟩) ∨
        (0 ≤ a.toInt ∧ ∃ b ∈ cfg.memCap, (b : Int) ≤ a.toInt ∧ t = ⟨.capacityExceeded, 1, a⟩))

/-- The instance of handle `h`, in focus or parked. -/
def State.coreOf (h : Nat) (s : State) : Option Core :=
  if s.focus = some h then some s.core else Assoc.get? h s.parked

/-- A run is in progress on the instance in focus and nothing has stopped the machine, so the next step is that core's
cycle (40_execution_cycle.md rule R111, 46_host_interface.md rule R191). -/
def State.Runs (s : State) : Prop := ¬ s.stopped ∧ s.core.busy = true ∧ s.core.status = .running

/-- Nothing runs and nothing is pending, so the next step is the host's next operation. -/
def State.HostTurn (s : State) : Prop :=
  ¬ s.stopped ∧ s.core.busy = false ∧ s.call = .none ∧ s.orch.phase = .idle

/-- The state a fault of the instance in focus leaves (rule R116): `status`, `busy` and the latch change. -/
def State.faulted (s : State) (t : Trap) : State :=
  { s with
    core :=
      { s.core with
        status := .faulted
        busy := false
        fault := { code := some t.code, detail := t.detail, pc := s.core.pc, addr := t.addr } } }

/-- The state a fault that concerns no instance leaves (60_exceptions.md rule R233). -/
def State.systemFaulted (s : State) (t : Trap) : State :=
  { s with sysFault := { code := some t.code, detail := t.detail, pc := 0, addr := t.addr } }

/-- The memory word `j` places after the program counter. -/
def Core.wordAhead (c : Core) (j : Nat) : Word := c.mem.words.getD (c.pc.toNat + j) 0

/-! ### Encoding -/

/-- The 136 legal instruction words of 30_encoding.md rule R97, by its formula. -/
def legalWords : List Int :=
  ([1, 2, 7, 8].flatMap fun op : Int => [0, 1, 2].flatMap fun a : Int => [0, 1, 2].flatMap fun b : Int =>
      [0, 1, 2].map fun c : Int => op + 100 * a + 1000 * b + 10000 * c) ++
    ([5, 6].flatMap fun op : Int => [0, 1, 2].flatMap fun a : Int => [0, 1, 2].map fun b : Int => op + 100 * a + 1000 * b) ++
    ([3, 4, 9].flatMap fun op : Int => [0, 1, 2].map fun a : Int => op + 100 * a) ++ [99]

/-- The operand count of an opcode, the table `OPERANDS` of rule R88. -/
def operandTable : List (Nat × Nat) :=
  [(1, 3), (2, 3), (3, 1), (4, 1), (5, 2), (6, 2), (7, 3), (8, 3), (9, 1), (99, 0)]

/-! ### Program text -/

/-- The decimal digits of a number, most significant first; `fuel` bounds their count. -/
def decimalDigits : Nat → Nat → List Char
  | 0, _ => []
  | fuel + 1, n => (if n < 10 then [] else decimalDigits fuel (n / 10)) ++ [Char.ofNat (48 + n % 10)]

/-- A word as the decimal integer of a program text. -/
def decimalText (w : Word) : List Char :=
  if w.toInt < 0 then '-' :: decimalDigits 20 w.toInt.natAbs else decimalDigits 20 w.toInt.natAbs

/-- The program text of some words: "comma-separated decimal integers" (46_host_interface.md rule R180). -/
def programText : List Word → ProgramText
  | [] => []
  | [w] => decimalText w
  | w :: v :: ws => decimalText w ++ ',' :: programText (v :: ws)

/-! ### The generator -/

/-- The arrangements that `n` calls of `next` return one after another, with the generator they leave. -/
def emissions : Nat → Generator → List (Option (List Word)) × Generator
  | 0, g => ([], g)
  | n + 1, g => ((genNext g).2 :: (emissions n (genNext g).1).1, (emissions n (genNext g).1).2)

/-! ### Safe steps and the invariant -/

/-- A step that goes on: it answers a next state in which no fault is latched. -/
def SafeStep (s : State) : Prop := ∃ t, step s = .next t ∧ ¬ t.stopped

/-- What holds of a core instance between steps. -/
structure CoreOk (cfg : Config) (c : Core) : Prop where
  /-- The memory is in its canonical form, with no word at or past `len`. -/
  memWf : c.mem.wf
  /-- `len ≤ MEM_CAP` (20_memory.md rule R51). -/
  memFits : Config.fits cfg.memCap c.mem.len
  /-- The input queue's length is at most `IN_DEPTH` (10_state.md rule R26). -/
  inFits : Config.fits cfg.inDepth c.inq.length
  /-- The output queue's length is at most `OUT_DEPTH` (rule R27). -/
  outFits : Config.fits cfg.outDepth c.outq.length
  /-- A run is in progress only while the status is Running (rules R30 and R31). -/
  busyRuns : c.busy = true → c.status = .running
  /-- A fault is latched exactly when the status is Faulted (rule R32). -/
  latched : c.status = .faulted ↔ c.fault.code ≠ none
  /-- A Waiting machine's last result is Waiting (40_execution_cycle.md rule R114). -/
  waits : c.status = .waiting → c.result = .waiting
  /-- A Halted machine's last result is Completed (rule R115). -/
  halts : c.status = .halted → ∃ v, c.result = .completed v

/-- What holds of the generator (10_state.md rule R36 and 47_permutation.md rule R205). -/
structure GenOk (g : Generator) : Prop where
  kMax : g.k ≤ permKMax
  oneEach : g.counters.length = g.k
  depthBound : g.depth ≤ g.k
  counterBound : ∀ j, g.counters.getD j 0 ≤ j

/-- What holds of the whole machine between steps. -/
structure Inv (s : State) : Prop where
  cfgWf : s.cfg.wf
  coreOk : CoreOk s.cfg s.core
  /-- A parked instance is in order, is in no run (60_exceptions.md rule R250), and was created under an earlier handle. -/
  parkedOk : ∀ x ∈ s.parked, CoreOk s.cfg x.2 ∧ x.2.busy = false ∧ x.1 < s.nextHandle
  parkedSorted : Assoc.Sorted s.parked
  /-- The instance in focus is not parked as well. -/
  focusOk : ∀ h ∈ s.focus, h < s.nextHandle ∧ Assoc.get? h s.parked = none
  genOk : GenOk s.gen
  /-- The orchestrator's program was loaded within `MEM_CAP` (46_host_interface.md rule R180). -/
  programFits : Config.fits s.cfg.memCap s.orch.program.length

end Sys2Proof.Machine
end

