-- ==== Sys2Proof/Certificates/Slice0/Obligations.lean ====
section
/-! DEFINITION. The statements about the machine. A docstring names the rule of spec/ a statement formalises; a rule the
spec marks as its own decision or inference makes the statement a derived one. -/

open Sys2Proof Sys2Proof.Machine

/-! ### The encoding -/

/-- 30_encoding.md rules R85 to R88: decoding the words of an instruction, whatever words follow them, gives that
instruction with every operand word and every mode, for both values of `STRICT_MODE_DIGITS`. -/
def Obligations.DecodeOfEncodeIsTheInstruction : Prop :=
  ∀ (strict : Bool) (i : Instr) (rest : List Word), decode strict (encode i ++ rest) = .ok i

/-- Rules R86 and R91: with strict digits, words that decode begin with the encoding of what they decode to, so no two
encodings name one instruction. -/
def Obligations.DecodedWordsAreTheEncoding : Prop :=
  ∀ (ws : List Word) (i : Instr), decode true ws = .ok i → ∃ rest, ws = encode i ++ rest

/-- Rule R97 (the spec marks it derived): with strict digits the legal instruction words are the 136 values of its
formula, of which 37 have an Immediate destination. -/
def Obligations.LegalInstructionWordsAre136 : Prop :=
  legalWords.Nodup ∧ legalWords.length = 136 ∧
    (∀ w p₁ p₂ p₃ : Word, (∃ i, decode true [w, p₁, p₂, p₃] = .ok i) ↔ w.toInt ∈ legalWords) ∧
    (legalWords.filter fun v =>
        match decode true [BitVec.ofInt 64 v, 0, 0, 0] with
        | .ok i => ¬ i.WellFormed
        | .error _ => false).length = 37

/-- Rule R91 (decision D6): with `STRICT_MODE_DIGITS = false` the digits above the parameters are ignored, so the word
decodes as the word without them does. -/
def Obligations.StrayDigitsAreIgnoredWhenNotStrict : Prop :=
  ∀ (w : Word) (ps : List Word) (n : Nat) (i : Instr), 0 ≤ w.toInt → (w.toNat % 100, n) ∈ operandTable →
    (decode false (w :: ps) = .ok i ↔ decode true (BitVec.ofNat 64 (w.toNat % 10 ^ (n + 2)) :: ps) = .ok i)

/-- Words written out from rule R86's digit pictures and from the examples there decode to the instructions they stand
for, one of every family. -/
def Obligations.WrittenOutWordsDecode : Prop :=
  decode true [1002, 4, 3, 4] = .ok (.mul ⟨.position, 4⟩ ⟨.immediate, 3⟩ ⟨.position, 4⟩) ∧
    decode true [20001, 7, -1, 5] = .ok (.add ⟨.position, 7⟩ ⟨.position, -1⟩ ⟨.relative, 5⟩) ∧
    decode true [1108, -1, 8, 3] = .ok (.eq ⟨.immediate, -1⟩ ⟨.immediate, 8⟩ ⟨.position, 3⟩) ∧
    decode true [2105, 1, 9] = .ok (.jnz ⟨.immediate, 1⟩ ⟨.relative, 9⟩) ∧
    decode true [203, -5] = .ok (.inp ⟨.relative, -5⟩) ∧
    decode true [204, 6] = .ok (.out ⟨.relative, 6⟩) ∧
    decode true [109, 1] = .ok (.arb ⟨.immediate, 1⟩) ∧
    decode true [99] = .ok .hlt

/-! ### The cycle's decode -/

/-- 40_execution_cycle.md rule R112: a step of a machine whose core runs executes the instruction its fetched words decode
to. -/
def Obligations.StepRunsTheDecodedInstruction : Prop :=
  ∀ (s : State) (i : Instr), s.Runs → decode s.cfg.strictModeDigits s.core.fetchWords = .ok i → step s = exec i s

/-- Rules R80, R88 and R112: where the words of an instruction stand in memory from `pc` on, below `len`, the step
executes that instruction. -/
def Obligations.StepRunsTheInstructionInMemory : Prop :=
  ∀ (s : State) (i : Instr), s.Runs → s.core.pc.toNat + i.width ≤ s.core.mem.len →
    (∀ j < i.width, s.core.wordAhead j = (encode i).getD j 0) → step s = exec i s

/-- 30_encoding.md rule R92 (decision D7): a fetch at or past `len` raises `FetchOutOfRange` with the first index that is
not below `len`, for the instruction word and for a parameter word. That an index of 2^63 or more is latched as the word
congruent to it is the model's choice (log entry 12). -/
def Obligations.FetchPastTheEndFaults : Prop :=
  ∀ s : State, s.Runs →
    (s.core.mem.len ≤ s.core.pc.toNat → step s = .next (s.faulted ⟨.fetchOutOfRange, 0, s.core.pc⟩)) ∧
    (∀ n, s.core.pc.toNat < s.core.mem.len → 0 ≤ (s.core.wordAhead 0).toInt →
      ((s.core.wordAhead 0).toNat % 100, n) ∈ operandTable → s.core.mem.len ≤ s.core.pc.toNat + n →
        step s = .next (s.faulted ⟨.fetchOutOfRange, 0, BitVec.ofNat 64 s.core.mem.len⟩))

/-- Rule R89, with rule R84 for the negative words: an opcode that is not in the table raises `InvalidOpcode`, and the
run is aborted. -/
def Obligations.UnknownOpcodesFault : Prop :=
  ∀ s : State, s.Runs → s.core.pc.toNat < s.core.mem.len →
    ((s.core.wordAhead 0).toInt < 0 ∨ ∀ n, ((s.core.wordAhead 0).toNat % 100, n) ∉ operandTable) →
      step s = .next (s.faulted ⟨.invalidOpcode, 0, s.core.wordAhead 0⟩)

/-- Rules R90 and R91 (decisions D5 and D6): the first parameter with a mode digit above 2 raises `InvalidMode` with its
number; with no such digit and strict digits, a non-zero digit above the parameters raises it with detail 0. -/
def Obligations.BadModeDigitsFault : Prop :=
  ∀ (s : State) (n : Nat), s.Runs → 0 ≤ (s.core.wordAhead 0).toInt →
    ((s.core.wordAhead 0).toNat % 100, n) ∈ operandTable → s.core.pc.toNat + n < s.core.mem.len →
      (∀ j, 1 ≤ j → j ≤ n → 2 < (s.core.wordAhead 0).toNat / 10 ^ (j + 1) % 10 →
        (∀ j', 1 ≤ j' → j' < j → (s.core.wordAhead 0).toNat / 10 ^ (j' + 1) % 10 ≤ 2) →
          step s = .next (s.faulted ⟨.invalidMode, j, s.core.wordAhead 0⟩)) ∧
      ((∀ j, 1 ≤ j → j ≤ n → (s.core.wordAhead 0).toNat / 10 ^ (j + 1) % 10 ≤ 2) → s.cfg.strictModeDigits = true →
        (s.core.wordAhead 0).toNat / 10 ^ (n + 2) ≠ 0 →
          step s = .next (s.faulted ⟨.invalidMode, 0, s.core.wordAhead 0⟩))

/-! ### Memory -/

/-- 20_memory.md rule R53: `MemRead` is `M[a]` below `len` and 0 from there up, whatever the parameters are; the fetch
does not use it past `len` but faults there. The word latched there for an index of 2^63 or more is the model's choice
(log entry 12). -/
def Obligations.ReadIsTheWordOrZero : Prop :=
  ∀ (m : Memory) (a : Nat),
    (a < m.len → m.words[a]? = some (m.read a)) ∧ (m.len ≤ a → m.read a = 0) ∧
      ∀ (cfg : Config) (c : Core), c.mem = m → c.pc.toNat = a → m.len ≤ a →
        c.decodeNext cfg = .error ⟨.fetchOutOfRange, 0, c.pc⟩

/-- Rule R54 (decision D15): `MemWrite` past the capacity raises `CapacityExceeded`; otherwise the sequence is extended
with zeros to cover the index and the word is set. The form of memory is a premise because the states of a run have it.
The word latched for an index of 2^63 or more, which no operand names, is the model's choice (log entry 12). -/
def Obligations.WriteExtendsWithZerosAndSets : Prop :=
  ∀ (cfg : Config) (m : Memory) (a : Nat) (v : Word), m.wf →
    ((∃ b ∈ cfg.memCap, b ≤ a) → memWrite cfg m a v = .error ⟨.capacityExceeded, 1, BitVec.ofNat 64 a⟩) ∧
      ((∀ b ∈ cfg.memCap, a < b) → ∃ m', memWrite cfg m a v = .ok m' ∧ m'.wf ∧
        m'.words = (m.words ++ List.replicate (a + 1 - m.len) 0).set a v)

/-- Rules R54 and R62: a read at the index written gives the word, and every other index reads as before. -/
def Obligations.ReadAfterWrite : Prop :=
  ∀ (m : Memory) (a : Nat) (v : Word), m.wf →
    (m.store a v).read a = v ∧ ∀ b, b ≠ a → (m.store a v).read b = m.read b

/-- Rule R52: after a load, `M[a]` is the `a`-th word of the program text, in text order, and `len` is their number. -/
def Obligations.LoadedMemoryIsTheProgramText : Prop :=
  ∀ (cfg : Config) (text : ProgramText) (ws : List Word), load cfg text = .ok ws →
    (Core.ofProgram ws).mem.words = ws ∧ (Core.ofProgram ws).mem.len = (splitCommas (trimBlanks text)).length ∧
      ∀ (a : Nat) (token : ProgramText), (splitCommas (trimBlanks text))[a]? = some token →
        ∃ w, (Core.ofProgram ws).mem.words[a]? = some w ∧ tokenInt token = some w.toInt

/-! ### What each instruction does -/

/-- 41_arithmetic.md rule R130 (decision D3 for the range): ADD writes the sum of its sources to its destination and
advances by 4. -/
def Obligations.AddWritesTheSum : Prop :=
  ∀ (s : State) (a b d : Param) (x y r : Word) (n : Nat), Source s.cfg s.core a x → Source s.cfg s.core b y →
    Narrows s.cfg (x.toInt + y.toInt) r → Destination s.cfg s.core d n →
      exec (.add a b d) s = .next { s with core := { s.core with mem := s.core.mem.store n r, pc := s.core.pc + 4 } }

/-- Rule R131 (decision D3 for the range): MUL writes the product of its sources to its destination and advances by 4. -/
def Obligations.MulWritesTheProduct : Prop :=
  ∀ (s : State) (a b d : Param) (x y r : Word) (n : Nat), Source s.cfg s.core a x → Source s.cfg s.core b y →
    Narrows s.cfg (x.toInt * y.toInt) r → Destination s.cfg s.core d n →
      exec (.mul a b d) s = .next { s with core := { s.core with mem := s.core.mem.store n r, pc := s.core.pc + 4 } }

/-- 42_relation.md rules R140 and R142: LT writes 1 when its first source is less than its second as a signed integer, 0
otherwise, and advances by 4. -/
def Obligations.LtWritesTheRelation : Prop :=
  ∀ (s : State) (a b d : Param) (x y r : Word) (n : Nat), Source s.cfg s.core a x → Source s.cfg s.core b y →
    (x.toInt < y.toInt → r = 1) → (y.toInt ≤ x.toInt → r = 0) → Destination s.cfg s.core d n →
      exec (.lt a b d) s = .next { s with core := { s.core with mem := s.core.mem.store n r, pc := s.core.pc + 4 } }

/-- Rules R141 and R142: EQ writes 1 when its sources are equal, 0 otherwise, and advances by 4. -/
def Obligations.EqWritesTheRelation : Prop :=
  ∀ (s : State) (a b d : Param) (x y r : Word) (n : Nat), Source s.cfg s.core a x → Source s.cfg s.core b y →
    (x = y → r = 1) → (x ≠ y → r = 0) → Destination s.cfg s.core d n →
      exec (.eq a b d) s = .next { s with core := { s.core with mem := s.core.mem.store n r, pc := s.core.pc + 4 } }

/-- 43_jump.md rule R150 (decision D12): JNZ goes to its target's value when the condition is not 0, and otherwise, even
with a negative target, on by 3. -/
def Obligations.JnzJumpsWhenNotZero : Prop :=
  ∀ (s : State) (c t : Param) (x y : Word), Source s.cfg s.core c x → Source s.cfg s.core t y →
    (x.toInt ≠ 0 → 0 ≤ y.toInt → exec (.jnz c t) s = .next { s with core := { s.core with pc := y } }) ∧
      (x.toInt = 0 → exec (.jnz c t) s = .next { s with core := { s.core with pc := s.core.pc + 3 } })

/-- Rule R151 (decision D12): JZ goes to its target's value when the condition is 0, and otherwise, even with a negative
target, on by 3. -/
def Obligations.JzJumpsWhenZero : Prop :=
  ∀ (s : State) (c t : Param) (x y : Word), Source s.cfg s.core c x → Source s.cfg s.core t y →
    (x.toInt = 0 → 0 ≤ y.toInt → exec (.jz c t) s = .next { s with core := { s.core with pc := y } }) ∧
      (x.toInt ≠ 0 → exec (.jz c t) s = .next { s with core := { s.core with pc := s.core.pc + 3 } })

/-- 44_io.md rule R160: IN writes the front of the input queue to its destination, removes it and advances by 2. -/
def Obligations.InStoresTheFrontOfTheQueue : Prop :=
  ∀ (s : State) (d : Param) (v : Word) (rest : List Word) (n : Nat), s.core.inq = v :: rest →
    Destination s.cfg s.core d n →
      exec (.inp d) s =
        .next { s with core := { s.core with mem := s.core.mem.store n v, inq := rest, pc := s.core.pc + 2 } }

/-- 40_execution_cycle.md rule R114 with 44_io.md rule R160: with an empty queue IN ends the run Waiting, with the program
counter, the queue and memory as they were. That it does so in every mode, the queue being looked at before an Immediate
destination faults, is the spec's decision D10. -/
def Obligations.InSuspendsOnAnEmptyQueue : Prop :=
  ∀ (s : State) (d : Param), s.core.inq = [] →
    exec (.inp d) s = .next { s with core := { s.core with status := .waiting, busy := false, result := .waiting } }

/-- 44_io.md rule R161 (decision D16 for the capacity): OUT appends its source's value to the output queue and advances
by 2. -/
def Obligations.OutAppendsItsSource : Prop :=
  ∀ (s : State) (a : Param) (v : Word), Source s.cfg s.core a v → s.cfg.outDepth ≠ some s.core.outq.length →
    exec (.out a) s = .next { s with core := { s.core with outq := s.core.outq ++ [v], pc := s.core.pc + 2 } }

/-- 45_base_halt.md rule R170 (decision D3 for the range): ARB adds its source's value to the relative base and advances
by 2. -/
def Obligations.ArbAddsToTheBase : Prop :=
  ∀ (s : State) (a : Param) (v r : Word), Source s.cfg s.core a v → Narrows s.cfg (s.core.rb.toInt + v.toInt) r →
    exec (.arb a) s = .next { s with core := { s.core with rb := r, pc := s.core.pc + 2 } }

/-- Rule R171 with 40_execution_cycle.md rule R115 (decisions D13 and D39): HLT completes the run with the back of the
output queue, which keeps every value, and leaves `pc`. -/
def Obligations.HltCompletesWithTheLastOutput : Prop :=
  ∀ (s : State) (v : Word) (earlier : List Word), s.core.outq = earlier ++ [v] →
    exec .hlt s = .next { s with core := { s.core with status := .halted, busy := false, result := .completed v } }

/-! ### Where instructions fault, in the order of 60_exceptions.md rule R241 (decision D38) -/

/-- Rules R130, R131, R140 and R141: the first source, then the second, then (ADD and MUL) the result, then the
destination; the first check that fails is the fault latched. -/
def Obligations.ArithmeticAndRelationFaultsInOrder : Prop :=
  ∀ (s : State) (a b d : Param) (i : Instr), i ∈ [.add a b d, .mul a b d, .lt a b d, .eq a b d] →
    (∀ t, SourceFaults s.cfg s.core a t → exec i s = .next (s.faulted t)) ∧
    (∀ x, Source s.cfg s.core a x →
      (∀ t, SourceFaults s.cfg s.core b t → exec i s = .next (s.faulted t)) ∧
      (∀ y, Source s.cfg s.core b y →
        (i = .add a b d → Overflows s.cfg (x.toInt + y.toInt) →
          exec i s = .next (s.faulted ⟨.arithmeticOverflow, 1, 0⟩)) ∧
        (i = .mul a b d → Overflows s.cfg (x.toInt * y.toInt) →
          exec i s = .next (s.faulted ⟨.arithmeticOverflow, 1, 0⟩)) ∧
        ((i = .add a b d → ¬ Overflows s.cfg (x.toInt + y.toInt)) →
          (i = .mul a b d → ¬ Overflows s.cfg (x.toInt * y.toInt)) →
            ∀ t, DestinationFaults s.cfg s.core d t → exec i s = .next (s.faulted t))))

/-- Rules R150 and R151 (decision D12): the condition, then the target, and only a taken jump faults on a negative
target. -/
def Obligations.JumpFaultsInOrder : Prop :=
  ∀ (s : State) (c q : Param) (i : Instr), i ∈ [.jnz c q, .jz c q] →
    (∀ t, SourceFaults s.cfg s.core c t → exec i s = .next (s.faulted t)) ∧
    (∀ x, Source s.cfg s.core c x →
      (∀ t, SourceFaults s.cfg s.core q t → exec i s = .next (s.faulted t)) ∧
      (∀ y, Source s.cfg s.core q y → y.toInt < 0 → (i = .jnz c q ↔ x.toInt ≠ 0) →
        exec i s = .next (s.faulted ⟨.invalidJumpTarget, 0, y⟩)))

/-- Rules R160, R161, R170 and R171 (decisions D3, D13, D16): IN with a value faults on its destination and keeps the
value; OUT faults on its source and then on a full queue; ARB on its source and then on the new base; HLT on an empty
output queue. -/
def Obligations.QueueAndBaseFaultsInOrder : Prop :=
  ∀ (s : State) (a : Param),
    (s.core.inq ≠ [] → ∀ t, DestinationFaults s.cfg s.core a t → exec (.inp a) s = .next (s.faulted t)) ∧
    (∀ t, SourceFaults s.cfg s.core a t →
      exec (.out a) s = .next (s.faulted t) ∧ exec (.arb a) s = .next (s.faulted t)) ∧
    (∀ v, Source s.cfg s.core a v →
      (s.cfg.outDepth = some s.core.outq.length → exec (.out a) s = .next (s.faulted ⟨.capacityExceeded, 2, 0⟩)) ∧
      (Overflows s.cfg (s.core.rb.toInt + v.toInt) →
        exec (.arb a) s = .next (s.faulted ⟨.arithmeticOverflow, 3, 0⟩))) ∧
    (s.core.outq = [] → exec .hlt s = .next (s.faulted ⟨.haltWithoutOutput, 0, 0⟩))

/-! ### Frames -/

/-- What ADD, MUL, LT, EQ and IN leave unchanged: everything outside the core, the relative base, the output queue, the
fault latch unless they fault, every memory word but the one at the index the destination names (all of memory where it
names none), and, but for IN, the input queue, and unless they fault the status, the run and its result. -/
def Obligations.StoringInstructionsFrame : Prop :=
  ∀ (s t : State) (i : Instr) (d : Param), i.dst? = some d → s.core.mem.wf → exec i s = .next t →
    t = { s with core := t.core } ∧ t.core.rb = s.core.rb ∧ t.core.outq = s.core.outq ∧
    (∀ n, destIndex s.cfg s.core d = .ok n → ∀ k, k ≠ n → t.core.mem.read k = s.core.mem.read k) ∧
    ((∀ n, destIndex s.cfg s.core d ≠ .ok n) → t.core.mem = s.core.mem) ∧
    (t.core.status ≠ .faulted → t.core.fault = s.core.fault) ∧
    ((∀ q, i ≠ .inp q) → t.core.inq = s.core.inq ∧ t.core.result = s.core.result ∧
      (t.core.status ≠ .faulted → t.core.status = s.core.status ∧ t.core.busy = s.core.busy))

/-- What OUT, JNZ, JZ, ARB and HLT leave unchanged: everything outside the core, all of memory, the input queue, the
fault latch unless they fault, the output queue but for OUT, the relative base but for ARB, the result but for HLT, and,
but for HLT, the status and the run unless they fault. -/
def Obligations.NonStoringInstructionsFrame : Prop :=
  ∀ (s t : State) (i : Instr), i.dst? = none → exec i s = .next t →
    t = { s with core := t.core } ∧ t.core.mem = s.core.mem ∧ (∀ k, t.core.mem.read k = s.core.mem.read k) ∧
    t.core.inq = s.core.inq ∧ ((∀ a, i ≠ .out a) → t.core.outq = s.core.outq) ∧
    ((∀ a, i ≠ .arb a) → t.core.rb = s.core.rb) ∧
    (t.core.status ≠ .faulted → t.core.fault = s.core.fault) ∧
    (i ≠ .hlt → t.core.result = s.core.result ∧
      (t.core.status ≠ .faulted → t.core.status = s.core.status ∧ t.core.busy = s.core.busy))

/-! ### The run and the whole machine -/

/-- 20_memory.md rules R65 and R69: a core cycle always answers a next state, changes its own instance only, and what it
does to it depends on that instance and the parameters alone: two machines that agree there, whatever else they hold,
are changed alike. -/
def Obligations.CycleDependsOnItsInstanceOnly : Prop :=
  ∀ s s' : State, s.Runs → s'.Runs → s.cfg = s'.cfg → s.core = s'.core →
    ∃ c, step s = .next { s with core := c } ∧ step s' = .next { s' with core := c }

/-- 60_exceptions.md rule R240 (decision D11): a cycle either goes on safely or latches one fault and commits nothing
else. -/
def Obligations.FaultsArePrecise : Prop :=
  ∀ s : State, s.Runs → SafeStep s ∨ ∃ t : Trap, step s = .next (s.faulted t)

/-- 40_execution_cycle.md rule R123 (the spec marks it derived): a cycle leaves the run in progress, with `result` and the
latch as they were, or ends it in exactly one of the three ways. -/
def Obligations.RunEndsInOneOfThreeWays : Prop :=
  ∀ s t : State, s.Runs → step s = .next t →
    (t.core.busy = true ∧ t.core.status = .running ∧ t.core.result = s.core.result ∧ t.core.fault = s.core.fault) ∨
    (t.core.busy = false ∧
      ((t.core.status = .waiting ∧ t.core.result = .waiting ∧ t.core.pc = s.core.pc ∧ t.core.fault = s.core.fault) ∨
        (t.core.status = .halted ∧ (∃ v, s.core.outq.getLast? = some v ∧ t.core.result = .completed v) ∧
          t.core.pc = s.core.pc ∧ t.core.fault = s.core.fault) ∨
        (t.core.status = .faulted ∧ t.core.result = s.core.result ∧ t.core.pc = s.core.pc ∧
          t.core.fault.code ≠ none)))

/-- 10_state.md rule R30 (decisions D14 and D29): over every step, of any agent, an instance keeps its status or makes one
of the legal transitions. -/
def Obligations.StatusMovesLegally : Prop :=
  ∀ (s t : State) (h : Nat) (c c' : Core), Inv s → step s = .next t → s.coreOf h = some c → t.coreOf h = some c' →
    c'.status = c.status ∨
      (c.status, c'.status) ∈
        [(Status.running, Status.waiting), (.running, .halted), (.running, .faulted), (.waiting, .running),
          (.waiting, .faulted), (.halted, .faulted)]

/-- 10_state.md rules R23 and R25 and 20_memory.md rule R68: over every step, an instance's memory, program counter and
relative base change only by its own core's cycle; the host, the generator and the orchestrator never touch them. -/
def Obligations.OnlyItsOwnCycleChangesAnInstance : Prop :=
  ∀ (s t : State) (h : Nat) (c c' : Core), Inv s → step s = .next t → s.coreOf h = some c → t.coreOf h = some c' →
    (c'.mem = c.mem ∧ c'.pc = c.pc ∧ c'.rb = c.rb) ∨ (s.focus = some h ∧ s.Runs)

/-- Rule R25: the relative base is "mutated only by AdjustRelativeBase". -/
def Obligations.OnlyArbMovesTheBase : Prop :=
  ∀ s t : State, s.Runs → step s = .next t → t.core.rb ≠ s.core.rb →
    ∃ a, decode s.cfg.strictModeDigits s.core.fetchWords = .ok (.arb a)

/-- 20_memory.md rule R51: the length never shrinks, and grows only to one past the index a destination names. -/
def Obligations.MemoryNeverShrinks : Prop :=
  ∀ s t : State, s.Runs → step s = .next t →
    t.core.mem.len = s.core.mem.len ∨
      ∃ (i : Instr) (d : Param) (n : Nat), decode s.cfg.strictModeDigits s.core.fetchWords = .ok i ∧
        i.dst? = some d ∧ destIndex s.cfg s.core d = .ok n ∧ s.core.mem.len ≤ n ∧ t.core.mem.len = n + 1

/-- 44_io.md rule R162 (decision D17): over every step, a core's cycle at most pops the front of its input queue and
appends to its output queue; every other step at most appends to an input queue and pops the front of an output queue. -/
def Obligations.QueuesAreFirstInFirstOut : Prop :=
  ∀ (s t : State) (h : Nat) (c c' : Core), Inv s → step s = .next t → s.coreOf h = some c → t.coreOf h = some c' →
    ((s.focus = some h ∧ s.Runs) →
      (c'.inq = c.inq ∨ ∃ v, c.inq = v :: c'.inq) ∧ (c'.outq = c.outq ∨ ∃ v, c'.outq = c.outq ++ [v])) ∧
    (¬ (s.focus = some h ∧ s.Runs) →
      (c'.inq = c.inq ∨ ∃ v, c'.inq = c.inq ++ [v]) ∧ (c'.outq = c.outq ∨ ∃ v, c.outq = v :: c'.outq))

/-- 10_state.md rule R24 (the spec marks it derived): an instruction that decodes ends at or below `len`, so the program
counter does not wrap when it advances. Lengths are at most 2^63, the number of indices (00_scope.md rule R8). -/
def Obligations.ProgramCounterNeverWraps : Prop :=
  ∀ (s : State) (i : Instr), s.core.mem.len ≤ 9223372036854775808 →
    decode s.cfg.strictModeDigits s.core.fetchWords = .ok i →
      s.core.pc.toNat + i.width ≤ s.core.mem.len ∧
        (s.core.pc + BitVec.ofNat 64 i.width).toNat = s.core.pc.toNat + i.width

/-- 46_host_interface.md rule R191 (decision D28): once a fault is latched on any instance or in the system record, the
machine has stopped, whatever the host, the generator or the orchestrator still had to do. The fault the step answers
there is the model's own (log entry 10). -/
def Obligations.LatchedFaultStopsTheMachine : Prop :=
  ∀ s : State,
    (s.sysFault.code ≠ none ∨ ∃ h c, s.coreOf h = some c ∧ c.status = .faulted) →
      ∃ code, step s = .fault (.systemStopped code)

/-- The invariant of the machine is kept by every step: memory in canonical form, lengths within their capacities, the
control state consistent (rules R26 to R33), the generator's indices in range (47_permutation.md rule R205). -/
def Obligations.EveryStepKeepsTheInvariant : Prop :=
  ∀ s t : State, Inv s → step s = .next t → Inv t

/-- The machine at reset meets the invariant. Rule R260 gives the core's registers, queues, control state and latch, and
rule R7 the parameters but `MEM_CAP`. That memory is empty and `MEM_CAP` unbounded (log entry 3), the handles and the
model's own fields (log entry 5), and the fields of the generator and the orchestrator that rule R260 leaves unspecified
(log entry 7), on which `genOk` and `programFits` lean, are the model's choice. -/
def Obligations.ResetMeetsTheInvariant : Prop := Inv State.reset

/-- 70_reset_and_hazards.md rule R260 (decisions D11 and D17), for the core with no program given yet and for the
generator's state and the orchestrator's `best`. That memory is empty and that the parameters are the defaults of rule R7
is the model's choice (log entries 3 and 6). -/
def Obligations.ResetValues : Prop :=
  let s := State.reset
  s.core.pc = 0 ∧ s.core.rb = 0 ∧ s.core.inq = [] ∧ s.core.outq = [] ∧ s.core.status = .running ∧
    s.core.busy = false ∧ s.core.fault = ⟨none, 0, 0, 0⟩ ∧ s.core.fault.number = 0 ∧ s.core.result = .none ∧
    s.sysFault = ⟨none, 0, 0, 0⟩ ∧ s.gen.genState = .idle ∧ s.orch.best = none ∧ s.core.mem.words = [] ∧
    s.cfg.overflowMode = .fault ∧ s.cfg.strictModeDigits = true ∧ ¬ s.stopped

/-! ### The host's operations -/

/-- 46_host_interface.md rules R181 and R182: `new` and `new_with_input` create an instance in the reset state with the
program as its memory, the second with its value queued; every other instance stays as it is. That the handle returned
is the next number is the model's choice (log entries 4 and 5). -/
def Obligations.NewInstancesStartAtReset : Prop :=
  ∀ (s : State) (text : ProgramText) (v : Word) (ws : List Word), Inv s → load s.cfg text = .ok ws →
    ∀ p ∈ [(HostOp.new text, ([] : List Word)), (HostOp.newWithInput text v, [v])],
      ∃ t c, perform p.1 s = .next t ∧ t.reply = .handle s.nextHandle ∧ s.coreOf s.nextHandle = none ∧
        t.coreOf s.nextHandle = some c ∧ c.mem.words = ws ∧ c.mem.len = ws.length ∧ c.pc = 0 ∧ c.rb = 0 ∧
        c.inq = p.2 ∧ c.outq = [] ∧ c.status = .running ∧ c.busy = false ∧ c.fault = ⟨none, 0, 0, 0⟩ ∧
        c.result = .none ∧ ∀ h, h ≠ s.nextHandle → t.coreOf h = s.coreOf h

/-- Rules R189 and R190 with 40_execution_cycle.md rules R110 and R111: while no core runs and nothing is pending, the
step is the host's next operation; where the host does nothing, no agent has a step. -/
def Obligations.StepPerformsTheHostsOperation : Prop :=
  ∀ s : State, s.HostTurn →
    (∀ op rest, s.script = op :: rest → step s = perform op { s with script := rest }) ∧
      (s.script = [] → step s = .refused .noEnabledStep)

/-- Rule R183 (decisions D16 and D40): `push_input` on an instance that is neither in a run nor Faulted appends to its
input queue and changes nothing else of it; a full bounded queue raises `CapacityExceeded` detail 3 on it. -/
def Obligations.PushInputAppends : Prop :=
  ∀ (s : State) (h : Nat) (v : Word) (c : Core), Inv s → s.coreOf h = some c → c.busy = false → c.status ≠ .faulted →
    ∃ t, perform (.pushInput h v) s = .next t ∧ (∀ h', h' ≠ h → t.coreOf h' = s.coreOf h') ∧
      (s.cfg.inDepth ≠ some c.inq.length → t.coreOf h = some { c with inq := c.inq ++ [v] } ∧ t.reply = .done) ∧
      (s.cfg.inDepth = some c.inq.length →
        t.coreOf h =
          some
            { c with
              status := .faulted
              busy := false
              fault := ⟨some .capacityExceeded, 3, c.pc, 0⟩ })

/-- Rule R184: `pop_output` returns the front of the output queue and removes it, or returns None and changes nothing
when the queue is empty; in every status but Faulted. -/
def Obligations.PopOutputTakesTheFront : Prop :=
  ∀ (s : State) (h : Nat) (c : Core), Inv s → s.coreOf h = some c → c.busy = false → c.status ≠ .faulted →
    ∃ t, perform (.popOutput h) s = .next t ∧ (∀ h', h' ≠ h → t.coreOf h' = s.coreOf h') ∧
      (c.outq = [] → t.coreOf h = some c ∧ t.reply = .output none) ∧
      (∀ v rest, c.outq = v :: rest → t.coreOf h = some { c with outq := rest } ∧ t.reply = .output (some v))

/-- Rules R185 and R186, the call (decisions D14 and D37): `run` and `run_to_halt` on a Halted machine raise
`RunAfterHalt`; on a Running or Waiting one they start a run, and the next step is that core's cycle. The fields `focus`
and `call` are the model's own (log entry 5). -/
def Obligations.RunStartsTheCore : Prop :=
  ∀ (s : State) (h : Nat) (c : Core) (op : HostOp), Inv s → s.HostTurn → op ∈ [.run h, .runToHalt h] →
    s.coreOf h = some c → c.busy = false →
      ∃ t, perform op s = .next t ∧ t.focus = some h ∧ (∀ h', h' ≠ h → t.coreOf h' = s.coreOf h') ∧
        (c.status = .halted →
          t.core = { c with status := .faulted, busy := false, fault := ⟨some .runAfterHalt, 0, c.pc, 0⟩ }) ∧
        (c.status ≠ .halted → t.core = { c with status := .running, busy := true } ∧ t.Runs ∧
          (op = .run h → t.call = .run) ∧ (op = .runToHalt h → t.call = .runToHalt))

/-- Rules R185 and R186, the return (decision D37): once the run has ended, `run` returns its result, and `run_to_halt`
the value of a Completed one; a Waiting one raises `RunToHaltWaiting` on the instance. That the return is a step of its
own is the model's choice (log entry 5). -/
def Obligations.CallsReturnTheResult : Prop :=
  ∀ s : State, ¬ s.stopped → s.core.busy = false →
    (s.call = .run → step s = .next { s with call := .none, reply := .runResult s.core.result }) ∧
    (s.call = .runToHalt →
      (∀ v, s.core.result = .completed v → step s = .next { s with call := .none, reply := .value v }) ∧
      (s.core.result = .waiting → step s = .next (s.faulted ⟨.runToHaltWaiting, 0, 0⟩)))

/-- Rules R187 and R188 (decision D32): `clone` creates an instance whose every element equals this one's, and dropping an
instance leaves no instance of its handle; both leave every other instance as it is. That the copy's handle is the next
number is the model's choice (log entries 4 and 5). -/
def Obligations.CloneCopiesAndDropEnds : Prop :=
  ∀ (s : State) (h : Nat) (c : Core), Inv s → s.coreOf h = some c → c.busy = false → c.status ≠ .faulted →
    (∃ t, perform (.clone h) s = .next t ∧ t.reply = .handle s.nextHandle ∧ s.coreOf s.nextHandle = none ∧
      t.coreOf s.nextHandle = some c ∧ ∀ h', h' ≠ s.nextHandle → t.coreOf h' = s.coreOf h') ∧
    (∃ t, perform (.drop h) s = .next t ∧ t.coreOf h = none ∧ ∀ h', h' ≠ h → t.coreOf h' = s.coreOf h')

/-- Rule R266 with 40_execution_cycle.md rule R120 (decisions D17 and D33): a run positioned at an IN with an empty queue
returns Waiting with `pc` unchanged, and after one value is pushed the next run consumes exactly that value and advances
normally. The five steps are the suspension, the return, the push, the call and the retried IN; their count and the
script are the model's choice (log entry 5). -/
def Obligations.SuspendedInputResumes : Prop :=
  ∀ (s : State) (h n : Nat) (d : Param) (v : Word) (rest : List HostOp), s.Runs → s.focus = some h → s.call = .run →
    s.orch.phase = .idle → s.script = .pushInput h v :: .run h :: rest → s.core.inq = [] →
    s.cfg.inDepth ≠ some 0 → decode s.cfg.strictModeDigits s.core.fetchWords = .ok (.inp d) →
    Destination s.cfg s.core d n →
      (∃ t, core.run 2 s = .next t ∧ t.reply = .runResult .waiting ∧ t.core.pc = s.core.pc ∧
        t.core.status = .waiting ∧ t.core.mem = s.core.mem) ∧
      ∃ t, core.run 5 s = .next t ∧
        t.core = { s.core with mem := s.core.mem.store n v, pc := s.core.pc + 2, result := .waiting }

/-! ### The loader -/

/-- Rule R180 (decision D23): the decimal text of any non-empty sequence of words, with whitespace around it, loads as
those words, or raises `CapacityExceeded` detail 4 when they are more than `MEM_CAP`. The information word of that fault
for 2^63 or more words is the model's choice (log entry 12). -/
def Obligations.LoaderReadsBackProgramText : Prop :=
  ∀ (cfg : Config) (ws : List Word) (before after : List Char), ws ≠ [] → before.all isBlank → after.all isBlank →
    load cfg (before ++ programText ws ++ after) =
      if ∀ b ∈ cfg.memCap, ws.length ≤ b then .ok ws
      else .error ⟨.capacityExceeded, 4, BitVec.ofNat 64 ws.length⟩

/-- Rule R180 (decisions D15 and D23) with 60_exceptions.md rule R233: the loader raises `MalformedProgram` with the number,
from 1, of the first token that is no integer in `Word`, and `CapacityExceeded` detail 4 with the number of tokens when
every token is one and they are more than `MEM_CAP`. Whichever operation loads the text, `new`, `new_with_input` or the
orchestrator's call with a legal number of values, latches that fault in the system record and changes nothing else. That
the orchestrator's call loads before anything else is the model's inference (log entry 9), and the word latched for
2^63 or more tokens is its choice (log entry 12). -/
def Obligations.LoaderNamesTheFirstBadToken : Prop :=
  ∀ (s : State) (text : ProgramText) (v : Word) (values : List Word) (op : HostOp),
    op ∈ [.new text, .newWithInput text v] ∨ (op = .orchestrate text values ∧ 1 ≤ values.length ∧ values.length ≤ 5) →
      (∀ (good : List ProgramText) (bad : ProgramText) (more : List ProgramText),
        splitCommas (trimBlanks text) = good ++ bad :: more → (∀ token ∈ good, ∃ n, tokenInt token = some n ∧ InWord n) →
        (∀ n, tokenInt bad = some n → ¬ InWord n) →
          load s.cfg text = .error ⟨.malformedProgram, good.length + 1, 0⟩ ∧
            perform op s = .next (s.systemFaulted ⟨.malformedProgram, good.length + 1, 0⟩)) ∧
      (∀ (cap : Nat) (tokens : List ProgramText), s.cfg.memCap = some cap → splitCommas (trimBlanks text) = tokens →
        (∀ token ∈ tokens, ∃ n, tokenInt token = some n ∧ InWord n) → cap < tokens.length →
          load s.cfg text = .error ⟨.capacityExceeded, 4, BitVec.ofNat 64 tokens.length⟩ ∧
            perform op s = .next (s.systemFaulted ⟨.capacityExceeded, 4, BitVec.ofNat 64 tokens.length⟩))

/-! ### The permutation generator -/

/-- 47_permutation.md rule R203 (the spec marks it derived; decision D26): from `start` with `k` values, `k!` calls of
`next` return arrangements and every later call returns None; each arrangement is one of the values' orderings, and for
distinct values no two are equal. -/
def Obligations.GeneratorEmitsEveryPermutationOnce : Prop :=
  ∀ (values : List Word) (g : Generator), genStart values = .ok g →
    ∃ ps : List (List Word), (emissions values.length.factorial g).1 = ps.map some ∧
      ps.length = values.length.factorial ∧ (∀ p ∈ ps, p.Perm values) ∧ (values.Nodup → ps.Nodup) ∧
      ∀ n, (emissions n (emissions values.length.factorial g).2).1 = List.replicate n none

/-- Rules R201 and R202 (decisions D26, D27 and D41): `start` with at most 5 values restarts the generator in any state,
with more it raises `CapacityExceeded` detail 5 in the system record. `next` gives the host the arrangement, or None, that
the generator emits, and steps the generator; before any `start` it is refused. The word latched for 2^63 or more values
is the model's choice (log entry 12). -/
def Obligations.GeneratorStartAndRefusal : Prop :=
  ∀ (s : State) (values : List Word),
    (values.length ≤ 5 → perform (.genStart values) s = .next
      { s with
        gen := ⟨values, List.replicate values.length 0, 0, true, .generating⟩
        reply := .done }) ∧
    (5 < values.length → perform (.genStart values) s =
      .next (s.systemFaulted ⟨.capacityExceeded, 5, BitVec.ofNat 64 values.length⟩)) ∧
    (s.gen.genState = .idle → perform .genNext s = .refused .generatorIdle) ∧
    (s.gen.genState ≠ .idle → perform .genNext s = .next
      { s with
        gen := (genNext s.gen).1
        reply := .arrangement (genNext s.gen).2 })

/-! ### The orchestrator -/

/-- 48_orchestrator.md rules R210 and R211 (decision D27): a call with no value or more than 5 raises
`OrchestratorProtocol` detail 2; with a program that loads it starts the generator on the values and the search with
`best` None. That the program is loaded at the call, that the generator is the machine's own and that equal values are
not refused are the model's inferences (log entries 8, 9 and 17), and the word latched for 2^63 or more values is its
choice (log entry 12). -/
def Obligations.OrchestratorChecksItsValues : Prop :=
  ∀ (s : State) (text : ProgramText) (values ws : List Word),
    (values.length = 0 ∨ 5 < values.length → perform (.orchestrate text values) s =
      .next (s.systemFaulted ⟨.orchestratorProtocol, 2, BitVec.ofNat 64 values.length⟩)) ∧
    (1 ≤ values.length → values.length ≤ 5 → load s.cfg text = .ok ws →
      ∃ t g, perform (.orchestrate text values) s = .next t ∧ genStart values = .ok g ∧ t.gen = g ∧
        t.orch.phase = .next ∧ t.orch.program = ws ∧ t.orch.values = values ∧ t.orch.best = none ∧ t.core = s.core)

/-- Rule R211 (decision D24 for the carried value): for an arrangement of the generator the orchestrator creates one fresh
instance per value, that value its first input, and sets `carried` and `i` to 0. -/
def Obligations.OrchestratorBuildsAFreshPipeline : Prop :=
  ∀ (s : State) (p : List Word), Inv s → ¬ s.stopped → s.core.busy = false → s.call = .none → s.orch.phase = .next →
    (genNext s.gen).2 = some p →
      ∃ t, step s = .next t ∧ t.orch.phase = .feed ∧ t.orch.machines.length = p.length ∧ t.orch.index = 0 ∧
        t.orch.carried = 0 ∧ t.orch.best = s.orch.best ∧ t.gen = (genNext s.gen).1 ∧
        (∀ (j : Nat) (v : Word), p[j]? = some v → ∃ h, t.orch.machines[j]? = some h ∧ s.coreOf h = none ∧
          t.coreOf h = some (Core.ofProgramWithInput s.orch.program v)) ∧
        ∀ h, h < s.nextHandle → t.coreOf h = s.coreOf h

/-- Rules R212 and R213 (decision D25): after a Waiting result the machine's single output becomes the carried value and
leaves the queue, and the next machine in rotation is to be fed; any other number of outputs raises
`OrchestratorProtocol` detail 1. To feed a machine is to push the carried value into its input queue, and to call `run`
on it afterwards, as the host does: a full bounded queue raises `CapacityExceeded` detail 3 on it, and a Halted machine
`RunAfterHalt` (rules R183 and R185, decisions D14 and D16). That each of these actions is a step of its own, and the
word latched for 2^63 or more outputs, are the model's choice (log entries 5 and 12). -/
def Obligations.OrchestratorHandsOnTheSingleOutput : Prop :=
  ∀ (s : State) (h : Nat), ¬ s.stopped → s.core.busy = false → s.call = .none →
    s.orch.machines[s.orch.index]? = some h →
      (s.orch.phase = .collect → s.focus = some h → s.core.result = .waiting →
        (∀ v, s.core.outq = [v] → step s = .next
          { s with
            core := { s.core with outq := [] }
            orch :=
              { s.orch with
                phase := .feed
                carried := v
                index := (s.orch.index + 1) % s.orch.machines.length } }) ∧
        (s.core.outq.length ≠ 1 → step s =
          .next (s.systemFaulted ⟨.orchestratorProtocol, 1, BitVec.ofNat 64 s.core.outq.length⟩))) ∧
      (∀ c, Inv s → s.coreOf h = some c →
        (s.orch.phase = .feed → ∃ t, step s = .next t ∧ (∀ h', h' ≠ h → t.coreOf h' = s.coreOf h') ∧
          (s.cfg.inDepth ≠ some c.inq.length →
            t.coreOf h = some { c with inq := c.inq ++ [s.orch.carried] } ∧ t.orch = { s.orch with phase := .call }) ∧
          (s.cfg.inDepth = some c.inq.length →
            t.coreOf h =
              some
                { c with
                  status := .faulted
                  busy := false
                  fault := ⟨some .capacityExceeded, 3, c.pc, 0⟩ })) ∧
        (s.orch.phase = .call → ∃ t, step s = .next t ∧ t.focus = some h ∧
          (∀ h', h' ≠ h → t.coreOf h' = s.coreOf h') ∧
          (c.status ≠ .halted → t.core = { c with status := .running, busy := true } ∧ t.Runs ∧
            t.orch = { s.orch with phase := .collect }) ∧
          (c.status = .halted →
            t.core = { c with status := .faulted, busy := false, fault := ⟨some .runAfterHalt, 0, c.pc, 0⟩ })))

/-- Rules R214 and R215 (decision D25): after a Completed result `v` the carried value is `v`. A machine before the last
hands on to the next one, into whose input queue the step after this one pushes `v`. When the last completes, the
machines are dropped and the search takes up the next arrangement with `best` the larger of `best` and `v` as signed
integers. That the push is a step of its own is the model's choice (log entry 5). -/
def Obligations.OrchestratorEndsAtTheLastMachine : Prop :=
  ∀ (s : State) (h : Nat) (v : Word), Inv s → ¬ s.stopped → s.core.busy = false → s.call = .none →
    s.orch.phase = .collect → s.focus = some h → s.orch.machines[s.orch.index]? = some h →
    s.core.result = .completed v →
      ∃ t, step s = .next t ∧ t.orch.carried = v ∧
        (s.orch.index + 1 < s.orch.machines.length →
          t = { s with orch := { s.orch with phase := .feed, carried := v, index := s.orch.index + 1 } } ∧
          ∀ h' c', s.orch.machines[s.orch.index + 1]? = some h' → s.coreOf h' = some c' →
            s.cfg.inDepth ≠ some c'.inq.length →
              ∃ u, step t = .next u ∧ u.orch.phase = .call ∧ u.orch.index = s.orch.index + 1 ∧
                u.coreOf h' = some { c' with inq := c'.inq ++ [v] }) ∧
        (s.orch.index + 1 = s.orch.machines.length → t.orch.phase = .next ∧
          (∀ h' ∈ s.orch.machines, t.coreOf h' = none) ∧
          (s.orch.best = none → t.orch.best = some v) ∧
          ∀ b, s.orch.best = some b → t.orch.best = some (if b.toInt < v.toInt then v else b))

/-- Rule R215 (the spec marks it derived): when the generator has no arrangement left, the search ends and the host gets
`best` as the answer. After the final results of the arrangements, in whatever order they come, `best` is the largest of
them: what the end of an arrangement makes of it is OrchestratorEndsAtTheLastMachine's, and here that is folded over all
the results. -/
def Obligations.OrchestratorAnswerIsTheMaximum : Prop :=
  (∀ s : State, ¬ s.stopped → s.core.busy = false → s.call = .none → s.orch.phase = .next →
    (genNext s.gen).2 = none →
      step s = .next
        { s with
          gen := (genNext s.gen).1
          orch := { s.orch with phase := .idle }
          reply := .answer s.orch.best }) ∧
  (∀ (s : State) (h : Nat) (v : Word), ¬ s.stopped → s.core.busy = false → s.call = .none → s.orch.phase = .collect →
    s.focus = some h → s.orch.machines[s.orch.index]? = some h → s.core.result = .completed v →
    s.orch.index + 1 = s.orch.machines.length →
      ∃ t, step s = .next t ∧ t.orch.phase = .next ∧ t.orch.best = bestAfter s.orch.best v) ∧
  ∀ finals : List Word, finals ≠ [] →
    ∃ b ∈ finals, finals.foldl bestAfter none = some b ∧ ∀ f ∈ finals, f.toInt ≤ b.toInt
end

