-- ==== Sys2Proof/Laws/Memory.lean ====
section
/-! SUPPORT. Entry lists by rising key, and the laws of memory: read after write, and that every operation keeps the
canonical form. -/

namespace Sys2Proof.Machine

namespace Assoc
variable {α : Type}

@[simp] theorem get?_nil (a : Nat) : get? a ([] : List (Nat × α)) = none := rfl

theorem get?_cons (a k : Nat) (v : α) (t : List (Nat × α)) :
    get? a ((k, v) :: t) = if k = a then some v else get? a t := rfl

/-- What a key that was put holds, and that every other key holds what it did. -/
theorem get?_put (a b : Nat) (v : α) (l : List (Nat × α)) :
    get? b (put a v l) = if b = a then some v else get? b l := by
  induction l with
  | nil => grind [put, get?]
  | cons x t ih =>
    obtain ⟨k, w⟩ := x
    grind [put, get?]

theorem get?_del (a b : Nat) (l : List (Nat × α)) : get? b (del a l) = if b = a then none else get? b l := by
  induction l with
  | nil => simp [del, get?]
  | cons x t ih =>
    obtain ⟨k, w⟩ := x
    have e : del a ((k, w) :: t) = if k = a then del a t else (k, w) :: del a t := by
      by_cases h : k = a <;> simp [del, h]
    rw [e]
    split
    · rw [ih, get?_cons]; split <;> first | rfl | (split <;> first | rfl | omega)
    · rw [get?_cons, get?_cons, ih]; split <;> split <;> first | rfl | omega

theorem mem_of_get? {a : Nat} {v : α} {l : List (Nat × α)} (h : get? a l = some v) : (a, v) ∈ l := by
  induction l with
  | nil => simp at h
  | cons x t ih =>
    obtain ⟨k, w⟩ := x
    rw [get?_cons] at h
    split at h
    · simp_all
    · exact List.mem_cons_of_mem _ (ih h)

theorem get?_of_mem {a : Nat} {v : α} {l : List (Nat × α)} (hs : Sorted l) (h : (a, v) ∈ l) : get? a l = some v := by
  induction l with
  | nil => simp at h
  | cons x t ih =>
    obtain ⟨k, w⟩ := x
    rw [get?_cons]
    rcases List.mem_cons.1 h with h | h
    · cases h; simp
    · have := (List.pairwise_cons.1 hs).1 _ h
      rw [if_neg (by simpa using this.ne), ih (List.pairwise_cons.1 hs).2 h]

theorem mem_put {a : Nat} {v : α} {l : List (Nat × α)} {x : Nat × α} (h : x ∈ put a v l) : x = (a, v) ∨ x ∈ l := by
  induction l with
  | nil => simpa [put] using h
  | cons y t ih =>
    obtain ⟨k, w⟩ := y
    simp only [put] at h
    split at h
    · simpa using h
    · split at h
      · rcases List.mem_cons.1 h with h | h
        · exact .inl h
        · exact .inr (List.mem_cons_of_mem _ h)
      · rcases List.mem_cons.1 h with h | h
        · exact .inr (h ▸ List.mem_cons_self)
        · exact (ih h).imp id (List.mem_cons_of_mem _)

theorem sorted_put {a : Nat} {v : α} {l : List (Nat × α)} (hs : Sorted l) : Sorted (put a v l) := by
  induction l with
  | nil => simp [put, Sorted]
  | cons y t ih =>
    obtain ⟨k, w⟩ := y
    obtain ⟨h1, h2⟩ := List.pairwise_cons.1 hs
    simp only [put]
    split
    case isTrue h =>
      refine List.pairwise_cons.2 ⟨fun x hx => ?_, hs⟩
      rcases List.mem_cons.1 hx with hx | hx
      · subst hx; exact h
      · have := h1 x hx; simp only at this ⊢; omega
    case isFalse h =>
      split
      case isTrue e => subst e; exact List.pairwise_cons.2 ⟨h1, h2⟩
      case isFalse e =>
        refine List.pairwise_cons.2 ⟨fun x hx => ?_, ih h2⟩
        rcases mem_put hx with hx | hx
        · subst hx; simp only; omega
        · exact h1 x hx

theorem mem_del {a : Nat} {l : List (Nat × α)} {x : Nat × α} : x ∈ del a l ↔ x ∈ l ∧ x.1 ≠ a := by
  simp [del]

theorem sorted_del {a : Nat} {l : List (Nat × α)} (hs : Sorted l) : Sorted (del a l) := hs.filter _

/-- Two lists in canonical form that hold the same at every key are equal. -/
theorem ext_get? {l m : List (Nat × α)} (hl : Sorted l) (hm : Sorted m) (h : ∀ a, get? a l = get? a m) : l = m := by
  induction l generalizing m with
  | nil =>
    cases m with
    | nil => rfl
    | cons y t => have := h y.1; simp [get?] at this
  | cons x t ih =>
    cases m with
    | nil => have := h x.1; simp [get?] at this
    | cons y u =>
      obtain ⟨k, v⟩ := x
      obtain ⟨j, w⟩ := y
      obtain ⟨h1, h2⟩ := List.pairwise_cons.1 hl
      obtain ⟨h3, h4⟩ := List.pairwise_cons.1 hm
      have hk := h k
      have hj := h j
      simp only [get?_cons, if_true] at hk hj
      have e : k = j := by
        by_contra hne
        rw [if_neg (Ne.symm hne)] at hk
        rw [if_neg hne] at hj
        have := h3 _ (mem_of_get? hk.symm)
        have := h1 _ (mem_of_get? hj)
        simp only at *
        omega
      subst e
      simp only [if_true, Option.some.injEq] at hk
      subst hk
      refine congrArg _ (ih h2 h4 fun a => ?_)
      have ha := h a
      simp only [get?_cons] at ha
      split at ha
      case isFalse => exact ha
      case isTrue e =>
        subst e
        have n1 : get? k t = none := by
          rcases hg : get? k t with _ | z
          · rfl
          · have := h1 _ (mem_of_get? hg); simp at this
        have n2 : get? k u = none := by
          rcases hg : get? k u with _ | z
          · rfl
          · have := h3 _ (mem_of_get? hg); simp at this
        rw [n1, n2]

end Assoc

namespace Memory

@[simp] theorem store_len (m : Memory) (a : Nat) (v : Word) : (m.store a v).len = max m.len (a + 1) := rfl

theorem wf_empty : wf ⟨[], 0⟩ := by simp [wf, Assoc.Sorted]

/-- The write keeps the canonical form. -/
theorem wf_store {m : Memory} (h : m.wf) (a : Nat) (v : Word) : (m.store a v).wf := by
  obtain ⟨hs, hb⟩ := h
  by_cases hv : v = unlisted
  · have e : (m.store a v).cells = Assoc.del a m.cells := if_pos hv
    refine ⟨e ▸ Assoc.sorted_del hs, fun x hx => ?_⟩
    rw [e] at hx
    have := hb x (Assoc.mem_del.1 hx).1
    exact ⟨by simp only [store_len]; omega, this.2⟩
  · have e : (m.store a v).cells = Assoc.put a v m.cells := if_neg hv
    refine ⟨e ▸ Assoc.sorted_put hs, fun x hx => ?_⟩
    rw [e] at hx
    rcases Assoc.mem_put hx with hx | hx
    · subst hx; exact ⟨by simp only [store_len]; omega, hv⟩
    · have := hb x hx
      exact ⟨by simp only [store_len]; omega, this.2⟩

/-- What a listed or unlisted index holds after a write. -/
theorem getD_store (m : Memory) (a b : Nat) (v : Word) :
    (Assoc.get? b (m.store a v).cells).getD 0 = if b = a then v else (Assoc.get? b m.cells).getD 0 := by
  by_cases hv : v = unlisted
  · rw [show (m.store a v).cells = Assoc.del a m.cells from if_pos hv, Assoc.get?_del]
    split <;> simp [hv, unlisted]
  · rw [show (m.store a v).cells = Assoc.put a v m.cells from if_neg hv, Assoc.get?_put]
    split <;> simp

theorem get?_none_of_wf {m : Memory} (h : m.wf) {b : Nat} (hb : m.len ≤ b) : Assoc.get? b m.cells = none := by
  rcases hg : Assoc.get? b m.cells with _ | v
  · rfl
  · have := (h.2 _ (Assoc.mem_of_get? hg)).1
    simp only at this
    omega

/-- In the canonical form a read needs no look at the length. -/
theorem read_eq {m : Memory} (h : m.wf) (b : Nat) : m.read b = (Assoc.get? b m.cells).getD 0 := by
  unfold read
  split
  · rfl
  · rw [get?_none_of_wf h (by omega)]; rfl

@[simp] theorem words_length (m : Memory) : m.words.length = m.len := by simp [words]

/-- A read is the sequence's element, and 0 past its end. -/
theorem read_eq_words (m : Memory) (b : Nat) : m.read b = m.words.getD b 0 := by
  unfold read words
  split
  case isTrue h => simp [List.getD, h, unlisted]
  case isFalse h => simp [List.getD, h]

theorem wf_storeAll {m : Memory} (h : m.wf) (a : Nat) (ws : List Word) : (m.storeAll a ws).wf := by
  induction ws generalizing m a with
  | nil => exact h
  | cons w ws ih => exact ih (wf_store h a w) (a + 1)

theorem storeAll_len (m : Memory) (a : Nat) (ws : List Word) (h : a ≤ m.len) :
    (m.storeAll a ws).len = max m.len (a + ws.length) := by
  induction ws generalizing m a with
  | nil => simp [storeAll, h]
  | cons w ws ih => rw [storeAll, ih _ _ (by simp), store_len, List.length_cons]; omega

theorem getD_storeAll (m : Memory) (a b : Nat) (ws : List Word) :
    (Assoc.get? b (m.storeAll a ws).cells).getD 0 =
      if a ≤ b ∧ b < a + ws.length then ws.getD (b - a) 0 else (Assoc.get? b m.cells).getD 0 := by
  induction ws generalizing m a with
  | nil => rw [storeAll, if_neg (by simp)]
  | cons w ws ih =>
    rw [storeAll, ih, getD_store, List.length_cons]
    by_cases hb : b = a
    · subst hb; simp
    · by_cases hc : a + 1 ≤ b ∧ b < a + 1 + ws.length
      · obtain ⟨k, rfl⟩ : ∃ k, b = a + 1 + k := ⟨b - (a + 1), by omega⟩
        rw [if_pos hc, if_pos (by omega), show a + 1 + k - (a + 1) = k by omega, show a + 1 + k - a = k + 1 by omega,
          List.getD_cons_succ]
      · rw [if_neg hc, if_neg hb, if_neg (by omega)]

theorem wf_ofWords (ws : List Word) : (ofWords ws).wf := wf_storeAll wf_empty 0 ws

@[simp] theorem ofWords_len (ws : List Word) : (ofWords ws).len = ws.length := by
  rw [ofWords, storeAll_len _ _ _ (by simp)]; simp

end Memory

/-- `MemWrite` answers the stored memory, within the capacity, or raises `CapacityExceeded`. -/
theorem memWrite_ok {cfg : Config} {m m' : Memory} {a : Nat} {v : Word} (h : memWrite cfg m a v = .ok m') :
    m' = m.store a v ∧ Config.fits cfg.memCap (a + 1) := by
  unfold memWrite at h
  split at h
  · cases h; exact ⟨rfl, ‹_›⟩
  · cases h

end Sys2Proof.Machine
end

