-- ==== Sys2Proof/Laws/State.lean ====
section
/-! SUPPORT. One lemma per field for each named update of a core or of the state. -/

namespace Sys2Proof.Machine

section Latch
variable (t : Trap) (c : Core)
@[simp] theorem latch_mem : (c.latch t).mem = c.mem := rfl
@[simp] theorem latch_pc : (c.latch t).pc = c.pc := rfl
@[simp] theorem latch_rb : (c.latch t).rb = c.rb := rfl
@[simp] theorem latch_inq : (c.latch t).inq = c.inq := rfl
@[simp] theorem latch_outq : (c.latch t).outq = c.outq := rfl
@[simp] theorem latch_status : (c.latch t).status = .faulted := rfl
@[simp] theorem latch_busy : (c.latch t).busy = false := rfl
@[simp] theorem latch_fault : (c.latch t).fault = ⟨some t.code, t.detail, c.pc, t.addr⟩ := rfl
@[simp] theorem latch_result : (c.latch t).result = c.result := rfl
end Latch

section Raise
variable (t : Trap) (s : State)
@[simp] theorem raise_cfg : (raise t s).cfg = s.cfg := rfl
@[simp] theorem raise_core : (raise t s).core = s.core.latch t := rfl
@[simp] theorem raise_focus : (raise t s).focus = s.focus := rfl
@[simp] theorem raise_parked : (raise t s).parked = s.parked := rfl
@[simp] theorem raise_nextHandle : (raise t s).nextHandle = s.nextHandle := rfl
@[simp] theorem raise_gen : (raise t s).gen = s.gen := rfl
@[simp] theorem raise_orch : (raise t s).orch = s.orch := rfl
@[simp] theorem raise_sysFault : (raise t s).sysFault = s.sysFault := rfl
@[simp] theorem raise_call : (raise t s).call = s.call := rfl
@[simp] theorem raise_script : (raise t s).script = s.script := rfl
@[simp] theorem raise_reply : (raise t s).reply = s.reply := rfl
@[simp] theorem raiseSystem_cfg : (raiseSystem t s).cfg = s.cfg := rfl
@[simp] theorem raiseSystem_core : (raiseSystem t s).core = s.core := rfl
@[simp] theorem raiseSystem_focus : (raiseSystem t s).focus = s.focus := rfl
@[simp] theorem raiseSystem_parked : (raiseSystem t s).parked = s.parked := rfl
@[simp] theorem raiseSystem_nextHandle : (raiseSystem t s).nextHandle = s.nextHandle := rfl
@[simp] theorem raiseSystem_gen : (raiseSystem t s).gen = s.gen := rfl
@[simp] theorem raiseSystem_orch : (raiseSystem t s).orch = s.orch := rfl
@[simp] theorem raiseSystem_sysFault : (raiseSystem t s).sysFault = ⟨some t.code, t.detail, 0, t.addr⟩ := rfl
@[simp] theorem raiseSystem_call : (raiseSystem t s).call = s.call := rfl
@[simp] theorem raiseSystem_script : (raiseSystem t s).script = s.script := rfl
@[simp] theorem raiseSystem_reply : (raiseSystem t s).reply = s.reply := rfl
end Raise

section Apply
variable (w : Nat) (c : Core) (t v : Word)
@[simp] theorem apply_mem (d : Directive) : (c.apply w d).mem = c.mem := by cases d <;> rfl
@[simp] theorem apply_rb (d : Directive) : (c.apply w d).rb = c.rb := by cases d <;> rfl
@[simp] theorem apply_inq (d : Directive) : (c.apply w d).inq = c.inq := by cases d <;> rfl
@[simp] theorem apply_outq (d : Directive) : (c.apply w d).outq = c.outq := by cases d <;> rfl
@[simp] theorem apply_fault (d : Directive) : (c.apply w d).fault = c.fault := by cases d <;> rfl
@[simp] theorem apply_advance : c.apply w .advance = { c with pc := c.pc + BitVec.ofNat 64 w } := rfl
@[simp] theorem apply_jump : c.apply w (.jump t) = { c with pc := t } := rfl
@[simp] theorem apply_suspend :
    c.apply w .suspend = { c with status := .waiting, busy := false, result := .waiting } := rfl
@[simp] theorem apply_halt :
    c.apply w (.halt v) = { c with status := .halted, busy := false, result := .completed v } := rfl
end Apply

section Retire
variable (w : Nat) (c : Core) (d : Directive) (t : Trap) (s : State)
@[simp] theorem retire_ok : retire w (.ok (c, d)) s = .next { s with core := c.apply w d } := rfl
@[simp] theorem retire_error : retire w (.error t) s = .next (raise t s) := rfl
end Retire

section Instances
variable (c : Core) (s : State)
@[simp] theorem addInstance_cfg : (s.addInstance c).cfg = s.cfg := rfl
@[simp] theorem addInstance_core : (s.addInstance c).core = s.core := rfl
@[simp] theorem addInstance_focus : (s.addInstance c).focus = s.focus := rfl
@[simp] theorem addInstance_parked : (s.addInstance c).parked = Assoc.put s.nextHandle c s.parked := rfl
@[simp] theorem addInstance_nextHandle : (s.addInstance c).nextHandle = s.nextHandle + 1 := rfl
@[simp] theorem addInstance_gen : (s.addInstance c).gen = s.gen := rfl
@[simp] theorem addInstance_orch : (s.addInstance c).orch = s.orch := rfl
@[simp] theorem addInstance_sysFault : (s.addInstance c).sysFault = s.sysFault := rfl
@[simp] theorem addInstance_call : (s.addInstance c).call = s.call := rfl
@[simp] theorem addInstance_script : (s.addInstance c).script = s.script := rfl
end Instances

end Sys2Proof.Machine
end

