-- ==== Sys2Proof/Laws/Operands.lean ====
section
/-! SUPPORT. What the operand operations answer, in the terms of Safety.lean. -/

namespace Sys2Proof.Machine

theorem toInt_ofInt_of_inWord {v : Int} (h : InWord v) : (BitVec.ofInt 64 v).toInt = v := by
  rw [BitVec.toInt_ofInt]
  exact Int.bmod_eq_of_le (by simp; omega) (by simp; omega)

theorem inWord_toInt (w : Word) : InWord w.toInt := by
  have h1 := BitVec.toInt_lt (x := w)
  have h2 := BitVec.le_toInt w
  constructor <;> omega

theorem toInt_toNat_of_nonneg {a : Word} (h : 0 ≤ a.toInt) : a.toInt.toNat = a.toNat := by
  have := a.isLt
  rw [BitVec.toInt_eq_toNat_cond] at h ⊢
  split at h <;> split <;> omega

/-- A word is the narrowing of the integer exactly when `checked` answers it. -/
theorem checked_ok_iff {cfg : Config} {d : Nat} {v : Int} {r : Word} : checked cfg d v = .ok r ↔ Narrows cfg v r := by
  unfold checked Narrows
  split
  case isTrue h =>
    refine ⟨fun e => ?_, fun e => ?_⟩
    · cases e; exact toInt_ofInt_of_inWord h
    · rw [← e, BitVec.ofInt_toInt]
  case isFalse h =>
    cases hm : cfg.overflowMode with
    | fault => simp
    | wrap =>
      refine ⟨fun e => ?_, fun e => ?_⟩
      · cases e
        refine ⟨rfl, ?_⟩
        rw [BitVec.toInt_ofInt]
        have h2 := Int.emod_emod_of_dvd
        rw [Int.sub_emod, show ((18446744073709551616 : Int)) = ((2 ^ 64 : Nat) : Int) by norm_num, Int.bmod_emod]
        simp
      · refine congrArg Except.ok ?_
        apply BitVec.eq_of_toInt_eq
        rw [BitVec.toInt_ofInt]
        have hr := inWord_toInt r
        have : v.bmod (2 ^ 64) = r.toInt := by
          have e1 : (v - r.toInt) % ((2 ^ 64 : Nat) : Int) = 0 := by
            have := e.2
            have : (18446744073709551616 : Int) ∣ r.toInt - v := Int.dvd_of_emod_eq_zero this
            exact Int.emod_eq_zero_of_dvd (by
              have := (Int.dvd_neg).2 this
              simpa using this)
          have e2 : v % ((2 ^ 64 : Nat) : Int) = r.toInt % ((2 ^ 64 : Nat) : Int) :=
            Int.emod_eq_emod_iff_emod_sub_eq_zero.2 e1
          have e3 : v.bmod (2 ^ 64) = (r.toInt).bmod (2 ^ 64) := by
            rw [← Int.emod_bmod, e2, Int.emod_bmod]
          rw [e3]
          exact Int.bmod_eq_of_le (by simp; omega) (by simp; omega)
        exact this

theorem checked_error_iff {cfg : Config} {d : Nat} {v : Int} {t : Trap} :
    checked cfg d v = .error t ↔ Overflows cfg v ∧ t = ⟨.arithmeticOverflow, d, 0⟩ := by
  unfold checked Overflows
  split
  case isTrue h => simp [h]
  case isFalse h => cases cfg.overflowMode <;> simp [h, eq_comm]

theorem resolve_ok_iff {cfg : Config} {c : Core} {q : Param} {a : Word} (hq : q.mode ≠ .immediate) :
    resolve cfg c q = .ok a ↔ Resolves cfg c q a := by
  obtain ⟨m, w⟩ := q
  cases m
  · simp [resolve, Resolves, eq_comm]
  · exact absurd rfl hq
  · exact checked_ok_iff

theorem resolve_error_iff {cfg : Config} {c : Core} {q : Param} {t : Trap} :
    resolve cfg c q = .error t ↔
      q.mode = .relative ∧ Overflows cfg (c.rb.toInt + q.word.toInt) ∧ t = ⟨.arithmeticOverflow, 2, 0⟩ := by
  obtain ⟨m, w⟩ := q
  cases m
  · simp [resolve]
  · simp [resolve]
  · simpa [resolve] using checked_error_iff

theorem not_resolves_of_immediate {cfg : Config} {c : Core} {q : Param} {a : Word} (h : q.mode = .immediate) :
    ¬ Resolves cfg c q a := by simp [Resolves, h]

/-- `ReadParam` answers exactly the value of the source operand. -/
theorem readParam_ok_iff {cfg : Config} {c : Core} {q : Param} {v : Word} :
    readParam cfg c q = .ok v ↔ Source cfg c q v := by
  unfold readParam Source
  by_cases hq : q.mode = .immediate
  · simp [hq, not_resolves_of_immediate hq, eq_comm]
  · simp only [hq, if_false, false_and, false_or]
    rcases hr : resolve cfg c q with t | a
    · refine ⟨fun e => (by cases e), fun ⟨a, ha, _⟩ => ?_⟩
      rw [← resolve_ok_iff hq, hr] at ha; cases ha
    · have key : ∀ b, Resolves cfg c q b ↔ b = a := fun b => by
        rw [← resolve_ok_iff hq, hr]; simp [eq_comm]
      simp only [bind, Except.bind, key, exists_eq_left]
      split
      case isTrue h => simp; omega
      case isFalse h =>
        rw [Memory.read_eq_words, ← toInt_toNat_of_nonneg (by omega)]
        simp only [Except.ok.injEq]
        exact ⟨fun e => ⟨by omega, e.symm⟩, fun e => e.2.symm⟩

/-- `ReadParam` raises exactly the faults of the source operand. -/
theorem readParam_error_iff {cfg : Config} {c : Core} {q : Param} {t : Trap} :
    readParam cfg c q = .error t ↔ SourceFaults cfg c q t := by
  unfold readParam SourceFaults
  by_cases hq : q.mode = .immediate
  · simp [hq, not_resolves_of_immediate hq]
  · simp only [hq, if_false]
    rcases hr : resolve cfg c q with t' | a
    · have h' := resolve_error_iff.1 hr
      have key : ∀ b, ¬ Resolves cfg c q b := fun b => by rw [← resolve_ok_iff hq, hr]; simp
      simp only [bind, Except.bind, key, false_and, exists_false, or_false, Except.error.injEq]
      obtain ⟨h1, h2, h3⟩ := h'
      subst h3
      exact ⟨fun e => ⟨h1, h2, e.symm⟩, fun e => e.2.2.symm⟩
    · have key : ∀ b, Resolves cfg c q b ↔ b = a := fun b => by
        rw [← resolve_ok_iff hq, hr]; simp [eq_comm]
      have ne : ¬ (q.mode = .relative ∧ Overflows cfg (c.rb.toInt + q.word.toInt) ∧ t = ⟨.arithmeticOverflow, 2, 0⟩) := by
        rw [← resolve_error_iff, hr]; simp
      simp only [ne, false_or, key, exists_eq_left, bind, Except.bind]
      split <;> simp_all [eq_comm]

/-- The index of a destination, before the capacity is looked at. -/
theorem destIndex_ok_iff {cfg : Config} {c : Core} {q : Param} {n : Nat} :
    destIndex cfg c q = .ok n ↔ ∃ a, Resolves cfg c q a ∧ 0 ≤ a.toInt ∧ n = a.toInt.toNat := by
  unfold destIndex
  by_cases hq : q.mode = .immediate
  · simp [hq, not_resolves_of_immediate hq]
  · simp only [hq, if_false]
    rcases hr : resolve cfg c q with t | a
    · refine ⟨fun e => (by cases e), fun ⟨a, ha, _⟩ => ?_⟩
      rw [← resolve_ok_iff hq, hr] at ha; cases ha
    · have key : ∀ b, Resolves cfg c q b ↔ b = a := fun b => by
        rw [← resolve_ok_iff hq, hr]; simp [eq_comm]
      simp only [bind, Except.bind, key, exists_eq_left]
      split
      case isTrue h => simp; omega
      case isFalse h =>
        rw [toInt_toNat_of_nonneg (by omega)]
        simp only [Except.ok.injEq]
        exact ⟨fun e => ⟨by omega, e.symm⟩, fun e => e.2.symm⟩

theorem destIndex_error_iff {cfg : Config} {c : Core} {q : Param} {t : Trap} :
    destIndex cfg c q = .error t ↔
      (q.mode = .immediate ∧ t = ⟨.invalidWrite, 1, 0⟩) ∨
        (q.mode = .relative ∧ Overflows cfg (c.rb.toInt + q.word.toInt) ∧ t = ⟨.arithmeticOverflow, 2, 0⟩) ∨
          ∃ a, Resolves cfg c q a ∧ a.toInt < 0 ∧ t = ⟨.invalidWrite, 2, a⟩ := by
  unfold destIndex
  by_cases hq : q.mode = .immediate
  · simp [hq, not_resolves_of_immediate hq, eq_comm]
  · simp only [hq, if_false, false_and, false_or]
    rcases hr : resolve cfg c q with t' | a
    · have h' := resolve_error_iff.1 hr
      have key : ∀ b, ¬ Resolves cfg c q b := fun b => by rw [← resolve_ok_iff hq, hr]; simp
      simp only [bind, Except.bind, key, false_and, exists_false, or_false, Except.error.injEq]
      obtain ⟨h1, h2, h3⟩ := h'
      subst h3
      exact ⟨fun e => ⟨h1, h2, e.symm⟩, fun e => e.2.2.symm⟩
    · have key : ∀ b, Resolves cfg c q b ↔ b = a := fun b => by
        rw [← resolve_ok_iff hq, hr]; simp [eq_comm]
      have ne : ¬ (q.mode = .relative ∧ Overflows cfg (c.rb.toInt + q.word.toInt) ∧ t = ⟨.arithmeticOverflow, 2, 0⟩) := by
        rw [← resolve_error_iff, hr]; simp
      simp only [ne, false_or, key, exists_eq_left, bind, Except.bind]
      split <;> simp_all [eq_comm]

/-- What a write that succeeds leaves: the same core with one word stored. -/
theorem writeParam_ok {cfg : Config} {c c' : Core} {q : Param} {v : Word} (h : writeParam cfg c q v = .ok c') :
    ∃ n, destIndex cfg c q = .ok n ∧ Config.fits cfg.memCap (n + 1) ∧ c' = { c with mem := c.mem.store n v } := by
  unfold writeParam at h
  rcases hd : destIndex cfg c q with t | n
  · rw [hd] at h; cases h
  · rw [hd] at h
    simp only [bind, Except.bind] at h
    rcases hw : memWrite cfg c.mem n v with t | m
    · rw [hw] at h; cases h
    · rw [hw] at h
      cases h
      obtain ⟨rfl, hf⟩ := memWrite_ok hw
      exact ⟨n, rfl, hf, rfl⟩

/-- A destination that can be written is written. -/
theorem writeParam_of_destination {cfg : Config} {c : Core} {q : Param} {n : Nat} (v : Word)
    (h : Destination cfg c q n) : writeParam cfg c q v = .ok { c with mem := c.mem.store n v } := by
  obtain ⟨a, h1, h2, h3, h4⟩ := h
  have hd := destIndex_ok_iff.2 ⟨a, h1, h2, h3⟩
  have hf : Config.fits cfg.memCap (n + 1) := fun b hb => h4 b hb
  rw [writeParam, hd]
  simp [bind, Except.bind, memWrite, if_pos hf]

/-- `WriteParam` raises exactly the faults of the destination operand. -/
theorem writeParam_error_iff {cfg : Config} {c : Core} {q : Param} {v : Word} {t : Trap} :
    writeParam cfg c q v = .error t ↔ DestinationFaults cfg c q t := by
  unfold writeParam DestinationFaults
  rcases hd : destIndex cfg c q with t' | n
  · have h := destIndex_error_iff.1 hd
    simp only [bind, Except.bind, Except.error.injEq]
    constructor
    · rintro rfl
      rcases h with h | h | ⟨a, h1, h2⟩
      · exact .inl h
      · exact .inr (.inl h)
      · exact .inr (.inr ⟨a, h1, .inl h2⟩)
    · intro h'
      have : destIndex cfg c q = .error t := by
        rw [destIndex_error_iff]
        rcases h' with h' | h' | ⟨a, h1, h2 | h2⟩
        · exact .inl h'
        · exact .inr (.inl h')
        · exact .inr (.inr ⟨a, h1, h2⟩)
        · rw [destIndex_ok_iff.2 ⟨a, h1, h2.1, rfl⟩] at hd; cases hd
      rw [this] at hd; cases hd; rfl
  · obtain ⟨a, h1, h2, h3⟩ := destIndex_ok_iff.1 hd
    have hn : ∀ t, ¬ (destIndex cfg c q = .error t) := fun t => by rw [hd]; simp
    have u : ∀ b, Resolves cfg c q b → 0 ≤ b.toInt → b = a := fun b hb hb0 => by
      have := destIndex_ok_iff.2 ⟨b, hb, hb0, rfl⟩
      rw [hd] at this
      apply BitVec.eq_of_toInt_eq
      have := Except.ok.inj this
      omega
    have ha : BitVec.ofNat 64 n = a := by
      rw [h3, toInt_toNat_of_nonneg h2]; simp
    by_cases hf : Config.fits cfg.memCap (n + 1)
    · simp only [bind, Except.bind, memWrite, if_pos hf, reduceCtorEq, false_iff]
      rintro (h | h | ⟨b, hb, h | ⟨h0, k, hk, hk2, _⟩⟩)
      · exact hn _ (destIndex_error_iff.2 (.inl h))
      · exact hn _ (destIndex_error_iff.2 (.inr (.inl h)))
      · exact hn _ (destIndex_error_iff.2 (.inr (.inr ⟨b, hb, h⟩)))
      · have := hf k hk
        have := u b hb h0
        subst this
        omega
    · simp only [bind, Except.bind, memWrite, if_neg hf, Except.error.injEq, ha]
      constructor
      · rintro rfl
        refine .inr (.inr ⟨a, h1, .inr ⟨h2, ?_⟩⟩)
        unfold Config.fits at hf
        push Not at hf
        obtain ⟨k, hk, hk2⟩ := hf
        exact ⟨k, hk, by omega, rfl⟩
      · rintro (h | h | ⟨b, hb, h | ⟨h0, k, hk, hk2, h⟩⟩)
        · exact absurd (destIndex_error_iff.2 (.inl h)) (hn _)
        · exact absurd (destIndex_error_iff.2 (.inr (.inl h))) (hn _)
        · exact absurd (destIndex_error_iff.2 (.inr (.inr ⟨b, hb, h⟩))) (hn _)
        · rw [h, u b hb h0]

/-- What ADD, MUL, LT and EQ do when no check fails. -/
theorem binary_ok {cfg : Config} {f : Word → Word → Except Trap Word} {a b d : Param} {c c' : Core} {dir : Directive}
    (h : binary cfg f a b d c = .ok (c', dir)) :
    ∃ x y r n, readParam cfg c a = .ok x ∧ readParam cfg c b = .ok y ∧ f x y = .ok r ∧ destIndex cfg c d = .ok n ∧
      Config.fits cfg.memCap (n + 1) ∧ c' = { c with mem := c.mem.store n r } ∧ dir = .advance := by
  unfold binary at h
  rcases hx : readParam cfg c a with t | x
  · rw [hx] at h; cases h
  rcases hy : readParam cfg c b with t | y
  · rw [hx, hy] at h; cases h
  rcases hr : f x y with t | r
  · rw [hx, hy] at h; simp [bind, Except.bind, hr] at h
  rcases hw : writeParam cfg c d r with t | c''
  · rw [hx, hy] at h; simp [bind, Except.bind, hr, hw] at h
  rw [hx, hy] at h
  simp only [bind, Except.bind, hr, hw, Except.ok.injEq, Prod.mk.injEq] at h
  obtain ⟨n, h1, h2, h3⟩ := writeParam_ok hw
  exact ⟨x, y, r, n, rfl, rfl, hr, h1, h2, h.1 ▸ h3, h.2.symm⟩

end Sys2Proof.Machine
end

