-- ==== Sys2Proof/Laws/Decode.lean ====
section
/-! SUPPORT. What the decoder's parts answer, in both directions. -/

namespace Sys2Proof

theorem toNat_ofNat_small {n : Nat} (h : n < 9223372036854775808) : (BitVec.ofNat 64 n).toNat = n := by
  rw [BitVec.toNat_ofNat]; omega

theorem toInt_ofNat_small {n : Nat} (h : n < 9223372036854775808) : (BitVec.ofNat 64 n).toInt = n := by
  rw [BitVec.toInt_eq_toNat_cond, toNat_ofNat_small h, if_pos (by omega)]

theorem Mode.digit_le (m : Mode) : m.digit ≤ 2 := by cases m <;> decide

theorem modeOfDigit_some_iff {d : Nat} {m : Mode} : modeOfDigit d = some m ↔ d = m.digit := by
  constructor
  · intro h
    unfold modeOfDigit at h
    split at h <;> cases h <;> rfl
  · rintro rfl; cases m <;> rfl

theorem modeOfDigit_none_iff {d : Nat} : modeOfDigit d = none ↔ 2 < d := by
  constructor
  · intro h
    by_contra hd
    have : d = 0 ∨ d = 1 ∨ d = 2 := by omega
    rcases this with rfl | rfl | rfl <;> cases h
  · intro h
    rcases hm : modeOfDigit d with _ | m
    · rfl
    · have := modeOfDigit_some_iff.1 hm
      have := m.digit_le
      omega

/-- A parameter is decoded exactly when its mode digit is one of the three, and holds its word as stored. -/
theorem paramOf_ok_iff {w : Word} {j : Nat} {p : Word} {q : Param} :
    paramOf w j p = .ok q ↔ q.word = p ∧ digit (j - 1) (w.toNat / 100) = q.mode.digit := by
  obtain ⟨m, v⟩ := q
  unfold paramOf
  rcases hm : modeOfDigit (digit (j - 1) (w.toNat / 100)) with _ | m'
  · simp only [reduceCtorEq, false_iff]
    rintro ⟨_, h⟩
    rw [modeOfDigit_some_iff.2 h] at hm
    cases hm
  · have := modeOfDigit_some_iff.1 hm
    simp only [Except.ok.injEq, Param.mk.injEq, this]
    constructor
    · rintro ⟨rfl, rfl⟩; exact ⟨rfl, rfl⟩
    · rintro ⟨rfl, h⟩
      refine ⟨?_, rfl⟩
      cases m <;> cases m' <;> first | rfl | cases h

theorem paramOf_error_iff {w : Word} {j : Nat} {p : Word} {e : DecodeError} :
    paramOf w j p = .error e ↔ 2 < digit (j - 1) (w.toNat / 100) ∧ e = .invalidMode j w := by
  unfold paramOf
  rcases hm : modeOfDigit (digit (j - 1) (w.toNat / 100)) with _ | m'
  · simp [modeOfDigit_none_iff.1 hm, eq_comm]
  · have := modeOfDigit_some_iff.1 hm
    have := m'.digit_le
    simp only [reduceCtorEq, false_iff]
    omega

theorem checkStray_ok_iff {strict : Bool} {w : Word} {n : Nat} {i i' : Instr} :
    checkStray strict w n i = .ok i' ↔ i' = i ∧ (strict = true → w.toNat / 100 / 10 ^ n = 0) := by
  unfold checkStray
  split
  case isTrue h => simp only [reduceCtorEq, false_iff]; exact fun e => h.2 (e.2 h.1)
  case isFalse h =>
    simp only [Except.ok.injEq]
    constructor
    · rintro rfl; exact ⟨rfl, fun hs => by simpa [hs] using h⟩
    · exact fun h => h.1.symm

/-- The rows of the opcode table. -/
theorem formOf_some {op : Nat} {f : Form} (h : formOf op = some f) :
    (op = 1 ∧ f = .f3 .add) ∨ (op = 2 ∧ f = .f3 .mul) ∨ (op = 3 ∧ f = .f1 .inp) ∨ (op = 4 ∧ f = .f1 .out) ∨
      (op = 5 ∧ f = .f2 .jnz) ∨ (op = 6 ∧ f = .f2 .jz) ∨ (op = 7 ∧ f = .f3 .lt) ∨ (op = 8 ∧ f = .f3 .eq) ∨
        (op = 9 ∧ f = .f1 .arb) ∨ (op = 99 ∧ f = .f0 .hlt) := by
  unfold formOf at h
  split at h <;> simp_all

/-- The table's opcodes and operand counts are those of `operandTable`. -/
theorem mem_operandTable_iff {op n : Nat} :
    (op, n) ∈ Machine.operandTable ↔ ∃ f, formOf op = some f ∧ f.operands = n := by
  have rows : ∀ row ∈ Machine.operandTable, ∃ f, formOf row.1 = some f ∧ f.operands = row.2 := by
    simp [Machine.operandTable, formOf, Form.operands]
  refine ⟨fun h => rows _ h, ?_⟩
  rintro ⟨f, hf, rfl⟩
  unfold formOf at hf
  split at hf <;> first | (cases hf; decide) | cases hf

theorem decode_cons {strict : Bool} {w : Word} {ps : List Word} {f : Form} (h0 : 0 ≤ w.toInt)
    (hf : formOf (w.toNat % 100) = some f) :
    decode strict (w :: ps) = decodeForm strict w (ps.length + 1) f ps := by
  simp only [decode, if_neg (not_lt.2 h0), hf, List.length_cons]

theorem decode_ok {strict : Bool} {ws : List Word} {i : Instr} (h : decode strict ws = .ok i) :
    ∃ w ps f, ws = w :: ps ∧ 0 ≤ w.toInt ∧ formOf (w.toNat % 100) = some f ∧
      decodeForm strict w ws.length f ps = .ok i := by
  unfold decode at h
  rcases ws with _ | ⟨w, ps⟩
  · cases h
  simp only at h
  split at h
  · cases h
  · rcases hf : formOf (w.toNat % 100) with _ | f
    · rw [hf] at h; cases h
    · rw [hf] at h
      exact ⟨w, ps, f, rfl, by omega, hf, h⟩

section Formats
variable {strict : Bool} {w : Word} {n : Nat} {ps : List Word} {i : Instr}

/-- Format F3 decodes exactly so. -/
theorem decodeForm3_ok_iff {mk : Param → Param → Param → Instr} :
    decodeForm strict w n (.f3 mk) ps = .ok i ↔
      ∃ a b c rest, ps = a.word :: b.word :: c.word :: rest ∧ i = mk a b c ∧
        digit 0 (w.toNat / 100) = a.mode.digit ∧ digit 1 (w.toNat / 100) = b.mode.digit ∧
          digit 2 (w.toNat / 100) = c.mode.digit ∧ (strict = true → w.toNat / 100 / 10 ^ 3 = 0) := by
  constructor
  · intro h
    rcases ps with _ | ⟨p1, _ | ⟨p2, _ | ⟨p3, rest⟩⟩⟩ <;> simp only [decodeForm, reduceCtorEq] at h
    rcases h1 : paramOf w 1 p1 with _ | a
    · rw [h1] at h; cases h
    rcases h2 : paramOf w 2 p2 with _ | b
    · rw [h1, h2] at h; cases h
    rcases h3 : paramOf w 3 p3 with _ | c
    · rw [h1, h2, h3] at h; cases h
    rw [h1, h2, h3] at h
    obtain ⟨rfl, hs⟩ := checkStray_ok_iff.1 h
    obtain ⟨rfl, d1⟩ := paramOf_ok_iff.1 h1
    obtain ⟨rfl, d2⟩ := paramOf_ok_iff.1 h2
    obtain ⟨rfl, d3⟩ := paramOf_ok_iff.1 h3
    exact ⟨a, b, c, rest, rfl, rfl, d1, d2, d3, hs⟩
  · rintro ⟨a, b, c, rest, rfl, rfl, d1, d2, d3, hs⟩
    simp only [decodeForm, (paramOf_ok_iff (j := 1) (q := a)).2 ⟨rfl, d1⟩, (paramOf_ok_iff (j := 2) (q := b)).2 ⟨rfl, d2⟩,
      (paramOf_ok_iff (j := 3) (q := c)).2 ⟨rfl, d3⟩, bind, Except.bind]
    exact checkStray_ok_iff.2 ⟨rfl, hs⟩

/-- Format F2 decodes exactly so. -/
theorem decodeForm2_ok_iff {mk : Param → Param → Instr} :
    decodeForm strict w n (.f2 mk) ps = .ok i ↔
      ∃ a b rest, ps = a.word :: b.word :: rest ∧ i = mk a b ∧
        digit 0 (w.toNat / 100) = a.mode.digit ∧ digit 1 (w.toNat / 100) = b.mode.digit ∧
          (strict = true → w.toNat / 100 / 10 ^ 2 = 0) := by
  constructor
  · intro h
    rcases ps with _ | ⟨p1, _ | ⟨p2, rest⟩⟩ <;> simp only [decodeForm, reduceCtorEq] at h
    rcases h1 : paramOf w 1 p1 with _ | a
    · rw [h1] at h; cases h
    rcases h2 : paramOf w 2 p2 with _ | b
    · rw [h1, h2] at h; cases h
    rw [h1, h2] at h
    obtain ⟨rfl, hs⟩ := checkStray_ok_iff.1 h
    obtain ⟨rfl, d1⟩ := paramOf_ok_iff.1 h1
    obtain ⟨rfl, d2⟩ := paramOf_ok_iff.1 h2
    exact ⟨a, b, rest, rfl, rfl, d1, d2, hs⟩
  · rintro ⟨a, b, rest, rfl, rfl, d1, d2, hs⟩
    simp only [decodeForm, (paramOf_ok_iff (j := 1) (q := a)).2 ⟨rfl, d1⟩, (paramOf_ok_iff (j := 2) (q := b)).2 ⟨rfl, d2⟩,
      bind, Except.bind]
    exact checkStray_ok_iff.2 ⟨rfl, hs⟩

/-- Format F1 decodes exactly so. -/
theorem decodeForm1_ok_iff {mk : Param → Instr} :
    decodeForm strict w n (.f1 mk) ps = .ok i ↔
      ∃ a rest, ps = a.word :: rest ∧ i = mk a ∧ digit 0 (w.toNat / 100) = a.mode.digit ∧
        (strict = true → w.toNat / 100 / 10 ^ 1 = 0) := by
  constructor
  · intro h
    rcases ps with _ | ⟨p1, rest⟩ <;> simp only [decodeForm, reduceCtorEq] at h
    rcases h1 : paramOf w 1 p1 with _ | a
    · rw [h1] at h; cases h
    rw [h1] at h
    obtain ⟨rfl, hs⟩ := checkStray_ok_iff.1 h
    obtain ⟨rfl, d1⟩ := paramOf_ok_iff.1 h1
    exact ⟨a, rest, rfl, rfl, d1, hs⟩
  · rintro ⟨a, rest, rfl, rfl, d1, hs⟩
    simp only [decodeForm, (paramOf_ok_iff (j := 1) (q := a)).2 ⟨rfl, d1⟩, bind, Except.bind]
    exact checkStray_ok_iff.2 ⟨rfl, hs⟩

/-- Format F0 decodes exactly so. -/
theorem decodeForm0_ok_iff {i₀ : Instr} :
    decodeForm strict w n (.f0 i₀) ps = .ok i ↔ i = i₀ ∧ (strict = true → w.toNat / 100 / 10 ^ 0 = 0) := by
  simp only [decodeForm]
  exact checkStray_ok_iff

end Formats

end Sys2Proof
end

