-- ==== Sys2Proof/Laws/Exec.lean ====
section
/-! SUPPORT. What an instruction can do, said once: `exec` is `retire` of the instruction's effect, and the effect that
raises nothing changes only what is listed here. -/

namespace Sys2Proof.Machine

/-- The effect of an instruction on the core, before its directive is applied. -/
def effect (cfg : Config) (c : Core) : Instr → Except Trap (Core × Directive)
  | .add a b d => binary cfg (fun x y => checked cfg 1 (x.toInt + y.toInt)) a b d c
  | .mul a b d => binary cfg (fun x y => checked cfg 1 (x.toInt * y.toInt)) a b d c
  | .inp d => takeInput cfg d c
  | .out a => giveOutput cfg a c
  | .jnz a t => jumpWhen notZero cfg a t c
  | .jz a t => jumpWhen isZero cfg a t c
  | .lt a b d => binary cfg (fun x y => .ok (relationWord (lessThan x y))) a b d c
  | .eq a b d => binary cfg (fun x y => .ok (relationWord (equals x y))) a b d c
  | .arb a => adjustBase cfg a c
  | .hlt => haltWithLast c

theorem exec_eq_retire (i : Instr) (s : State) : exec i s = retire i.width (effect s.cfg s.core i) s := by
  cases i <;> rfl

/-- Every instruction answers a next state, which differs from the old one in the core only. -/
theorem exec_next (i : Instr) (s : State) : ∃ c, exec i s = .next { s with core := c } := by
  rw [exec_eq_retire]
  rcases effect s.cfg s.core i with t | ⟨c, d⟩
  · exact ⟨s.core.latch t, rfl⟩
  · exact ⟨c.apply i.width d, rfl⟩

theorem takeInput_ok {cfg : Config} {d : Param} {c c' : Core} {dir : Directive}
    (h : takeInput cfg d c = .ok (c', dir)) :
    (c.inq = [] ∧ c' = c ∧ dir = .suspend) ∨
      ∃ v rest n, c.inq = v :: rest ∧ destIndex cfg c d = .ok n ∧ Config.fits cfg.memCap (n + 1) ∧
        c' = { c with mem := c.mem.store n v, inq := rest } ∧ dir = .advance := by
  unfold takeInput at h
  split at h
  case h_1 e => cases h; exact .inl ⟨e, rfl, rfl⟩
  case h_2 v rest e =>
    rcases hw : writeParam cfg c d v with t | c''
    · rw [hw] at h; cases h
    · rw [hw] at h
      cases h
      obtain ⟨n, h1, h2, rfl⟩ := writeParam_ok hw
      exact .inr ⟨v, rest, n, e, h1, h2, rfl, rfl⟩

theorem giveOutput_ok {cfg : Config} {a : Param} {c c' : Core} {dir : Directive}
    (h : giveOutput cfg a c = .ok (c', dir)) :
    ∃ v, readParam cfg c a = .ok v ∧ cfg.outDepth ≠ some c.outq.length ∧
      c' = { c with outq := c.outq ++ [v] } ∧ dir = .advance := by
  unfold giveOutput at h
  rcases hr : readParam cfg c a with t | v
  · rw [hr] at h; cases h
  · rw [hr] at h
    simp only [bind, Except.bind] at h
    split at h
    · cases h
    · cases h; exact ⟨v, rfl, ‹_›, rfl, rfl⟩

theorem jumpWhen_ok {taken : Word → Bool} {cfg : Config} {a b : Param} {c c' : Core} {dir : Directive}
    (h : jumpWhen taken cfg a b c = .ok (c', dir)) :
    ∃ x t, readParam cfg c a = .ok x ∧ readParam cfg c b = .ok t ∧ c' = c ∧
      ((taken x = true ∧ 0 ≤ t.toInt ∧ dir = .jump t) ∨ (taken x = false ∧ dir = .advance)) := by
  unfold jumpWhen at h
  rcases hx : readParam cfg c a with e | x
  · rw [hx] at h; cases h
  rcases ht : readParam cfg c b with e | t
  · rw [hx, ht] at h; cases h
  rw [hx, ht] at h
  simp only [bind, Except.bind] at h
  split at h
  · split at h
    · cases h
    · cases h; exact ⟨x, t, rfl, rfl, rfl, .inl ⟨‹_›, by omega, rfl⟩⟩
  · cases h; exact ⟨x, t, rfl, rfl, rfl, .inr ⟨by simpa using ‹¬ taken x = true›, rfl⟩⟩

theorem adjustBase_ok {cfg : Config} {a : Param} {c c' : Core} {dir : Directive}
    (h : adjustBase cfg a c = .ok (c', dir)) :
    ∃ v r, readParam cfg c a = .ok v ∧ checked cfg 3 (c.rb.toInt + v.toInt) = .ok r ∧
      c' = { c with rb := r } ∧ dir = .advance := by
  unfold adjustBase at h
  rcases hx : readParam cfg c a with e | x
  · rw [hx] at h; cases h
  rcases hr : checked cfg 3 (c.rb.toInt + x.toInt) with e | r
  · rw [hx] at h; simp [bind, Except.bind, hr] at h
  rw [hx] at h
  simp only [bind, Except.bind, hr] at h
  cases h
  exact ⟨x, r, rfl, hr, rfl, rfl⟩

theorem haltWithLast_ok {c c' : Core} {dir : Directive} (h : haltWithLast c = .ok (c', dir)) :
    ∃ v, c.outq.getLast? = some v ∧ c' = c ∧ dir = .halt v := by
  unfold haltWithLast at h
  split at h
  · cases h
  · cases h; exact ⟨_, ‹_›, rfl, rfl⟩

/-- All an effect can change: one stored word at the destination's index, the front of the input queue, the back of the
output queue, the relative base; and which instruction gives each directive. -/
structure EffectSpec (cfg : Config) (c : Core) (i : Instr) (c' : Core) (d : Directive) : Prop where
  pc : c'.pc = c.pc
  status : c'.status = c.status
  busy : c'.busy = c.busy
  fault : c'.fault = c.fault
  result : c'.result = c.result
  mem : c'.mem = c.mem ∨ ∃ q n v, i.dst? = some q ∧ destIndex cfg c q = .ok n ∧ Config.fits cfg.memCap (n + 1) ∧
    c'.mem = c.mem.store n v
  rb : c'.rb = c.rb ∨ ∃ a, i = .arb a
  inq : c'.inq = c.inq ∨ ∃ q v, i = .inp q ∧ c.inq = v :: c'.inq
  outq : c'.outq = c.outq ∨ ∃ a v, i = .out a ∧ cfg.outDepth ≠ some c.outq.length ∧ c'.outq = c.outq ++ [v]
  suspends : d = .suspend → ∃ q, i = .inp q ∧ c.inq = [] ∧ c' = c
  halts : ∀ v, d = .halt v → i = .hlt ∧ c.outq.getLast? = some v ∧ c' = c
  jumps : ∀ t, d = .jump t → 0 ≤ t.toInt ∧ c' = c ∧ ((∃ a b, i = .jnz a b) ∨ ∃ a b, i = .jz a b)

theorem effect_ok {cfg : Config} {c c' : Core} {i : Instr} {d : Directive} (h : effect cfg c i = .ok (c', d)) :
    EffectSpec cfg c i c' d := by
  cases i
  case add a b q =>
    obtain ⟨x, y, r, n, h1, h2, h3, h4, h5, rfl, rfl⟩ := binary_ok h
    exact ⟨rfl, rfl, rfl, rfl, rfl, .inr ⟨q, n, r, rfl, h4, h5, rfl⟩, .inl rfl, .inl rfl, .inl rfl, by simp, by simp,
      by simp⟩
  case mul a b q =>
    obtain ⟨x, y, r, n, h1, h2, h3, h4, h5, rfl, rfl⟩ := binary_ok h
    exact ⟨rfl, rfl, rfl, rfl, rfl, .inr ⟨q, n, r, rfl, h4, h5, rfl⟩, .inl rfl, .inl rfl, .inl rfl, by simp, by simp,
      by simp⟩
  case lt a b q =>
    obtain ⟨x, y, r, n, h1, h2, h3, h4, h5, rfl, rfl⟩ := binary_ok h
    exact ⟨rfl, rfl, rfl, rfl, rfl, .inr ⟨q, n, r, rfl, h4, h5, rfl⟩, .inl rfl, .inl rfl, .inl rfl, by simp, by simp,
      by simp⟩
  case eq a b q =>
    obtain ⟨x, y, r, n, h1, h2, h3, h4, h5, rfl, rfl⟩ := binary_ok h
    exact ⟨rfl, rfl, rfl, rfl, rfl, .inr ⟨q, n, r, rfl, h4, h5, rfl⟩, .inl rfl, .inl rfl, .inl rfl, by simp, by simp,
      by simp⟩
  case inp q =>
    rcases takeInput_ok h with ⟨h1, rfl, rfl⟩ | ⟨v, rest, n, h1, h2, h3, rfl, rfl⟩
    · constructor <;> simp_all [Instr.dst?]
    · exact ⟨rfl, rfl, rfl, rfl, rfl, .inr ⟨q, n, v, rfl, h2, h3, rfl⟩, .inl rfl, .inr ⟨q, v, rfl, h1⟩, .inl rfl, by simp,
        by simp, by simp⟩
  case out a =>
    obtain ⟨v, h1, h2, rfl, rfl⟩ := giveOutput_ok h
    constructor <;> simp_all [Instr.dst?]
  case jnz a b =>
    obtain ⟨x, t, h1, h2, rfl, ⟨h3, h4, rfl⟩ | ⟨h3, rfl⟩⟩ := jumpWhen_ok h <;> constructor <;> simp_all [Instr.dst?]
  case jz a b =>
    obtain ⟨x, t, h1, h2, rfl, ⟨h3, h4, rfl⟩ | ⟨h3, rfl⟩⟩ := jumpWhen_ok h <;> constructor <;> simp_all [Instr.dst?]
  case arb a =>
    obtain ⟨v, r, h1, h2, rfl, rfl⟩ := adjustBase_ok h
    constructor <;> simp_all [Instr.dst?]
  case hlt =>
    obtain ⟨v, h1, rfl, rfl⟩ := haltWithLast_ok h
    constructor <;> simp_all [Instr.dst?]

/-- One cycle of an enabled core: it either commits an effect with its directive, or latches one fault. -/
theorem cycle_cases (s : State) :
    (∃ i c d, s.core.decodeNext s.cfg = .ok i ∧ effect s.cfg s.core i = .ok (c, d) ∧
        cycle s = .next { s with core := c.apply i.width d }) ∨
      ∃ t, cycle s = .next (raise t s) := by
  unfold cycle
  rcases hd : s.core.decodeNext s.cfg with t | i
  · exact .inr ⟨t, rfl⟩
  · simp only [exec_eq_retire]
    rcases he : effect s.cfg s.core i with t | ⟨c, d⟩
    · exact .inr ⟨t, rfl⟩
    · exact .inl ⟨i, c, d, rfl, he, rfl⟩

/-- The step of a machine whose core is in a run. -/
theorem step_enabled {s : State} (h1 : ¬ s.stopped) (h2 : s.core.enabled) : step s = cycle s := by
  rw [step, agentStep, if_neg h1, if_pos h2]

/-- The step of a machine whose host side acts. -/
theorem step_host {s : State} (h1 : ¬ s.stopped) (h2 : s.core.busy = false) : step s = hostStep s := by
  rw [step, agentStep, if_neg h1, if_neg (by simp [Core.enabled, h2]), if_neg (by simp [h2])]

end Sys2Proof.Machine
end

