-- ==== Sys2Proof/Laws/Instances.lean ====
section
/-! SUPPORT. Focusing, creating and removing core instances: what each leaves of every instance, and that each keeps the
invariant. -/

namespace Sys2Proof.Machine

theorem coreOk_reset (cfg : Config) : CoreOk cfg Core.reset where
  memWf := Memory.wf_empty
  memFits := fun _ _ => Nat.zero_le _
  inFits := fun _ _ => Nat.zero_le _
  outFits := fun _ _ => Nat.zero_le _
  busyRuns := by simp [Core.reset]
  latched := by simp [Core.reset, FaultRec.clear]
  waits := by simp [Core.reset]
  halts := by simp [Core.reset]

/-- Memory at reset is in its canonical form. -/
theorem wf_reset_mem : State.reset.core.mem.wf := Memory.wf_empty

theorem coreOk_ofProgram {cfg : Config} {ws : List Word} (h : Config.fits cfg.memCap ws.length) :
    CoreOk cfg (Core.ofProgram ws) :=
  { coreOk_reset cfg with memWf := Memory.wf_ofWords ws, memFits := by simpa [Core.ofProgram] using h }

theorem coreOk_ofProgramWithInput {cfg : Config} {ws : List Word} (v : Word) (h : Config.fits cfg.memCap ws.length)
    (hc : cfg.wf) : CoreOk cfg (Core.ofProgramWithInput ws v) :=
  { coreOk_ofProgram h with inFits := hc.2.1 }

theorem coreOk_latch {cfg : Config} {c : Core} (t : Trap) (h : CoreOk cfg c) : CoreOk cfg (c.latch t) where
  memWf := h.memWf
  memFits := h.memFits
  inFits := h.inFits
  outFits := h.outFits
  busyRuns := by simp
  latched := by simp
  waits := by simp
  halts := by simp

section Focus
variable {s s' : State} {k : Nat} {c : Core}

theorem coreOf_focus (h : s.focus = some k) : s.coreOf k = some s.core := by simp [State.coreOf, h]

theorem coreOf_parked (h : s.focus ≠ some k) : s.coreOf k = Assoc.get? k s.parked := by simp [State.coreOf, h]

/-- A handle that names an instance is below the next one. -/
theorem lt_nextHandle_of_coreOf (hI : Inv s) (h : s.coreOf k = some c) : k < s.nextHandle := by
  by_cases hf : s.focus = some k
  · exact (hI.focusOk k hf).1
  · rw [coreOf_parked hf] at h
    exact (hI.parkedOk _ (Assoc.mem_of_get? h)).2.2

theorem coreOf_nextHandle (hI : Inv s) : s.coreOf s.nextHandle = none := by
  rcases h : s.coreOf s.nextHandle with _ | c
  · rfl
  · exact absurd (lt_nextHandle_of_coreOf hI h) (lt_irrefl _)

theorem coreOk_of_coreOf (hI : Inv s) (h : s.coreOf k = some c) : CoreOk s.cfg c := by
  by_cases hf : s.focus = some k
  · rw [coreOf_focus hf] at h; cases h; exact hI.coreOk
  · rw [coreOf_parked hf] at h; exact (hI.parkedOk _ (Assoc.mem_of_get? h)).1

theorem get?_unfocused (j : Nat) :
    Assoc.get? j s.unfocused = if s.focus = some j then some s.core else Assoc.get? j s.parked := by
  unfold State.unfocused
  rcases hf : s.focus with _ | g
  · simp
  · simp only [Assoc.get?_put, Option.some.injEq]
    split <;> split <;> first | rfl | omega

/-- Focusing answers a state exactly when the handle names an instance; that instance then stands in `core`, and every
instance is what it was. -/
theorem focusOn_spec (h : s.coreOf k = some c) :
    ∃ s', s.focusOn k = some s' ∧ s'.core = c ∧ s'.focus = some k ∧ (∀ j, s'.coreOf j = s.coreOf j) ∧
      s' = { s with core := s'.core, focus := s'.focus, parked := s'.parked } := by
  unfold State.focusOn
  by_cases hf : s.focus = some k
  · rw [coreOf_focus hf] at h
    cases h
    exact ⟨s, by simp [hf], rfl, hf, fun _ => rfl, rfl⟩
  · rw [coreOf_parked hf] at h
    refine ⟨_, by simp [hf, h]; rfl, rfl, rfl, fun j => ?_, rfl⟩
    simp only [State.coreOf, Option.some.injEq, Assoc.get?_del, get?_unfocused]
    by_cases hj : k = j
    · subst hj; simp [hf, h]
    · simp [hj, Ne.symm hj]

theorem focusOn_coreOf (h : s.focusOn k = some s') : s.coreOf k = some s'.core := by
  unfold State.focusOn at h
  split at h
  · cases h; exact coreOf_focus ‹_›
  · rename_i hf
    rw [coreOf_parked hf]
    rcases hg : Assoc.get? k s.parked with _ | c
    · rw [hg] at h; cases h
    · rw [hg] at h; cases h; rfl

/-- After focusing, too, the instance in focus is not parked as well. -/
theorem focusOk_focusOn (hI : Inv s) (h : s.focusOn k = some s') :
    ∀ j ∈ s'.focus, j < s'.nextHandle ∧ Assoc.get? j s'.parked = none := by
  unfold State.focusOn at h
  split at h
  · cases h; exact hI.focusOk
  · rcases hg : Assoc.get? k s.parked with _ | c
    · rw [hg] at h; cases h
    · rw [hg] at h; cases h
      intro j hj
      cases hj
      exact ⟨(hI.parkedOk _ (Assoc.mem_of_get? hg)).2.2, by rw [Assoc.get?_del, if_pos rfl]⟩

theorem inv_focusOn (hI : Inv s) (hb : s.core.busy = false) (h : s.focusOn k = some s') : Inv s' := by
  unfold State.focusOn at h
  split at h
  · cases h; exact hI
  · rename_i hf
    rcases hg : Assoc.get? k s.parked with _ | c
    · rw [hg] at h; cases h
    · rw [hg] at h; cases h
      have hk := hI.parkedOk _ (Assoc.mem_of_get? hg)
      have hu : ∀ x ∈ s.unfocused, CoreOk s.cfg x.2 ∧ x.2.busy = false ∧ x.1 < s.nextHandle := by
        intro x hx
        unfold State.unfocused at hx
        rcases hfo : s.focus with _ | g
        · rw [hfo] at hx; exact hI.parkedOk x hx
        · rw [hfo] at hx
          rcases Assoc.mem_put hx with rfl | hx
          · exact ⟨hI.coreOk, hb, (hI.focusOk g hfo).1⟩
          · exact hI.parkedOk x hx
      have hs : Assoc.Sorted s.unfocused := by
        unfold State.unfocused
        split
        · exact hI.parkedSorted
        · exact Assoc.sorted_put hI.parkedSorted
      exact
        { cfgWf := hI.cfgWf
          coreOk := hk.1
          parkedOk := fun x hx => hu x (Assoc.mem_del.1 hx).1
          parkedSorted := Assoc.sorted_del hs
          focusOk := focusOk_focusOn hI (by unfold State.focusOn; rw [if_neg hf, hg])
          genOk := hI.genOk
          programFits := hI.programFits }

/-- The instance in focus after focusing is in no run, when no core was. -/
theorem busy_focusOn (hI : Inv s) (hb : s.core.busy = false) (h : s.focusOn k = some s') : s'.core.busy = false := by
  have hc := focusOn_coreOf h
  by_cases hf : s.focus = some k
  · rw [coreOf_focus hf] at hc; rw [← Option.some.inj hc]; exact hb
  · rw [coreOf_parked hf] at hc
    exact (hI.parkedOk _ (Assoc.mem_of_get? hc)).2.1

/-- The machine has stopped exactly when a fault is latched in the system record or in some instance. -/
theorem stopped_iff (hI : Inv s) :
    s.stopped ↔ s.sysFault.code ≠ none ∨ s.core.status = .faulted ∨ ∃ j c, s.coreOf j = some c ∧ c.status = .faulted := by
  refine or_congr_right ⟨?_, ?_⟩
  · rintro (h | ⟨x, hx, h⟩)
    · exact .inl h
    · have hg := Assoc.get?_of_mem hI.parkedSorted hx
      refine .inr ⟨x.1, x.2, ?_, h⟩
      rw [coreOf_parked, hg]
      intro e
      rw [(hI.focusOk _ e).2] at hg
      cases hg
  · rintro (h | ⟨j, c, hj, h⟩)
    · exact .inl h
    · by_cases hf : s.focus = some j
      · rw [coreOf_focus hf] at hj; cases hj; exact .inl h
      · rw [coreOf_parked hf] at hj; exact .inr ⟨_, Assoc.mem_of_get? hj, h⟩

/-- Every instance of a machine that has not stopped is free of faults. -/
theorem not_faulted_of_coreOf (hI : Inv s) (hn : ¬ s.stopped) (h : s.coreOf k = some c) : c.status ≠ .faulted :=
  fun e => hn ((stopped_iff hI).2 (.inr (.inr ⟨k, c, h, e⟩)))

/-- Every instance is in no run when the one in focus is in none. -/
theorem not_busy_of_coreOf (hI : Inv s) (hb : s.core.busy = false) (h : s.coreOf k = some c) : c.busy = false := by
  by_cases hf : s.focus = some k
  · rw [coreOf_focus hf] at h; rw [← Option.some.inj h]; exact hb
  · rw [coreOf_parked hf] at h; exact (hI.parkedOk _ (Assoc.mem_of_get? h)).2.1

/-- Focusing does not stop the machine. -/
theorem not_stopped_focusOn (hI : Inv s) (hn : ¬ s.stopped) (hb : s.core.busy = false) (h : s.focusOn k = some s') :
    ¬ s'.stopped := by
  obtain ⟨s'', h1, -, -, h4, h5⟩ := focusOn_spec (focusOn_coreOf h)
  rw [h] at h1
  cases h1
  rw [stopped_iff (inv_focusOn hI hb h)]
  rintro (x | x | ⟨j, c, hj, x⟩)
  · rw [h5] at x; exact hn (.inl x)
  · exact not_faulted_of_coreOf hI hn (focusOn_coreOf h) x
  · rw [h4] at hj; exact not_faulted_of_coreOf hI hn hj x

/-- Another core in focus, in order, keeps the invariant. -/
theorem inv_setCore (hI : Inv s) (hc : CoreOk s.cfg c) : Inv { s with core := c } :=
  { hI with coreOk := hc }

theorem coreOf_setCore (hf : s.focus = some k) (j : Nat) :
    State.coreOf j { s with core := c } = if j = k then some c else s.coreOf j := by
  simp only [State.coreOf, hf, Option.some.injEq]
  split <;> split <;> first | rfl | omega

end Focus

section Create
variable {s : State} {c : Core}

theorem coreOf_addInstance (hF : ∀ h ∈ s.focus, h < s.nextHandle ∧ Assoc.get? h s.parked = none) (c : Core)
    (j : Nat) :
    (s.addInstance c).coreOf j = if j = s.nextHandle then some c else s.coreOf j := by
  simp only [State.coreOf, addInstance_focus, addInstance_core, addInstance_parked, Assoc.get?_put]
  by_cases hj : j = s.nextHandle
  · subst hj
    have : s.focus ≠ some s.nextHandle := fun h => lt_irrefl _ (hF _ h).1
    simp [this]
  · simp [hj]

theorem inv_addInstance (hI : Inv s) (hc : CoreOk s.cfg c) (hb : c.busy = false) : Inv (s.addInstance c) where
  cfgWf := hI.cfgWf
  coreOk := hI.coreOk
  parkedOk := fun x hx => by
    rcases Assoc.mem_put hx with rfl | hx
    · exact ⟨hc, hb, Nat.lt_succ_self _⟩
    · have := hI.parkedOk x hx
      exact ⟨this.1, this.2.1, Nat.lt_succ_of_lt this.2.2⟩
  parkedSorted := Assoc.sorted_put hI.parkedSorted
  focusOk := fun h hh => by
    have := hI.focusOk h hh
    refine ⟨Nat.lt_succ_of_lt this.1, ?_⟩
    rw [addInstance_parked, Assoc.get?_put, if_neg (by omega)]
    exact this.2
  genOk := hI.genOk
  programFits := hI.programFits

theorem coreOf_removeInstance (hF : ∀ h ∈ s.focus, h < s.nextHandle ∧ Assoc.get? h s.parked = none)
    (h j : Nat) :
    (s.removeInstance h).coreOf j = if j = h then none else s.coreOf j := by
  unfold State.removeInstance
  by_cases hf : s.focus = some h
  · rw [if_pos hf]
    have := (hF h hf).2
    by_cases hj : j = h
    · subst hj; simp [State.coreOf, this]
    · simp [State.coreOf, hf, hj, Ne.symm hj]
  · rw [if_neg hf]
    by_cases hj : j = h
    · subst hj; simp [State.coreOf, hf, Assoc.get?_del]
    · simp [State.coreOf, Assoc.get?_del, hj]

theorem inv_removeInstance (hI : Inv s) (h : Nat) : Inv (s.removeInstance h) := by
  unfold State.removeInstance
  split
  · exact
      { hI with
        coreOk := coreOk_reset _
        focusOk := by simp }
  · exact
      { hI with
        parkedOk := fun x hx => hI.parkedOk x (Assoc.mem_del.1 hx).1
        parkedSorted := Assoc.sorted_del hI.parkedSorted
        focusOk := fun k hk => by
          have := hI.focusOk k hk
          refine ⟨this.1, ?_⟩
          rw [Assoc.get?_del]
          split
          · rfl
          · exact this.2 }

end Create

section Machines
variable {s : State}

/-- The machines the orchestrator builds take the next handles in order, and no other instance changes. -/
theorem buildMachines_spec (ws : List Word) (ps : List Word) (hI : Inv s) (hw : Config.fits s.cfg.memCap ws.length) :
    Inv (buildMachines ws ps s) ∧
      (buildMachines ws ps s) =
        { s with
          parked := (buildMachines ws ps s).parked
          nextHandle := s.nextHandle + ps.length } ∧
      ∀ j, (buildMachines ws ps s).coreOf j =
        if s.nextHandle ≤ j ∧ j < s.nextHandle + ps.length then
          (ps[j - s.nextHandle]?).map (Core.ofProgramWithInput ws)
        else s.coreOf j := by
  induction ps generalizing s with
  | nil => exact ⟨hI, rfl, fun j => by rw [if_neg (by simp)]; rfl⟩
  | cons p ps ih =>
    have hI' : Inv (s.addInstance (Core.ofProgramWithInput ws p)) :=
      inv_addInstance hI (coreOk_ofProgramWithInput p hw hI.cfgWf) rfl
    obtain ⟨h1, h2, h3⟩ := ih hI' hw
    refine ⟨h1, ?_, fun j => ?_⟩
    · rw [buildMachines]
      rw [h2]
      simp only [List.length_cons, State.addInstance]
      congr 1
      omega
    · rw [buildMachines, h3, coreOf_addInstance hI.focusOk]
      simp only [addInstance_nextHandle, List.length_cons]
      by_cases hj : j = s.nextHandle
      · subst hj; simp
      · by_cases hk : s.nextHandle + 1 ≤ j ∧ j < s.nextHandle + 1 + ps.length
        · obtain ⟨d, rfl⟩ : ∃ d, j = s.nextHandle + 1 + d := ⟨j - (s.nextHandle + 1), by omega⟩
          have hk' : s.nextHandle ≤ s.nextHandle + 1 + d ∧ s.nextHandle + 1 + d < s.nextHandle + (ps.length + 1) := by
            omega
          simp only [hk, hk', and_self, if_true, show s.nextHandle + 1 + d - (s.nextHandle + 1) = d by omega,
            show s.nextHandle + 1 + d - s.nextHandle = d + 1 by omega, List.getElem?_cons_succ]
        · have hk' : ¬ (s.nextHandle ≤ j ∧ j < s.nextHandle + (ps.length + 1)) := by omega
          simp only [hk, hk', hj, if_false]

theorem dropMachines_spec (hs : List Nat) (hI : Inv s) :
    Inv (dropMachines hs s) ∧
      (dropMachines hs s) =
        { s with
          core := (dropMachines hs s).core
          focus := (dropMachines hs s).focus
          parked := (dropMachines hs s).parked } ∧
      ∀ j, (dropMachines hs s).coreOf j = if j ∈ hs then none else s.coreOf j := by
  induction hs generalizing s with
  | nil => exact ⟨hI, rfl, fun j => by simp [dropMachines]⟩
  | cons h hs ih =>
    obtain ⟨h1, h2, h3⟩ := ih (inv_removeInstance hI h)
    refine ⟨h1, ?_, fun j => ?_⟩
    · rw [dropMachines]
      rw [h2]
      unfold State.removeInstance
      split <;> rfl
    · rw [dropMachines, h3, coreOf_removeInstance hI.focusOk]
      by_cases hj : j = h
      · simp [hj]
      · simp [hj]

end Machines

end Sys2Proof.Machine
end

