-- ==== Sys2Proof/Laws/Host.lean ====
section
/-! SUPPORT. What the host, the generator and the orchestrator can do to an instance, said once: every step that is no
core cycle keeps the invariant and does to each instance one of five small things. -/

namespace Sys2Proof.Machine

/-- All that a step which is no cycle of its core can do to an instance. -/
inductive HostMove (c : Core) : Core → Prop where
  | same : HostMove c c
  | push (v : Word) : HostMove c { c with inq := c.inq ++ [v] }
  | pop (v : Word) (rest : List Word) (h : c.outq = v :: rest) : HostMove c { c with outq := rest }
  | start (h : c.status ≠ .halted) (h' : c.status ≠ .faulted) : HostMove c { c with status := .running, busy := true }
  | latch (t : Trap) (h : c.status ≠ .faulted) : HostMove c (c.latch t)

/-- The instances of `t` that `s` has too have made host moves only. -/
def HostMoves (s t : State) : Prop :=
  ∀ h c c', s.coreOf h = some c → t.coreOf h = some c' → HostMove c c'

theorem HostMoves.of_coreOf {s t : State} (h : ∀ j c, s.coreOf j = some c → t.coreOf j = s.coreOf j) :
    HostMoves s t := by
  intro j c c' h1 h2
  rw [h j c h1, h1] at h2
  cases h2
  exact .same

/-- Another core in focus that made a host move. -/
theorem HostMoves.setCore {s t : State} {c : Core} (hm : HostMove s.core c) (hc : t.core = c) (hf : t.focus = s.focus)
    (hp : t.parked = s.parked) : HostMoves s t := by
  intro j c₁ c₂ h1 h2
  simp only [State.coreOf, hf, hp] at h1 h2
  split at h1
  · rw [if_pos ‹_›] at h2
    cases h1; cases h2
    rw [hc]; exact hm
  · rw [if_neg ‹_›] at h2
    rw [h1] at h2; cases h2
    exact .same

theorem HostMoves.trans_left {s s' t : State} (h : ∀ j, s'.coreOf j = s.coreOf j) (hm : HostMoves s' t) :
    HostMoves s t := by
  intro j c c' h1 h2
  exact hm j c c' (by rw [h j]; exact h1) h2

/-- Fields the invariant does not read may change. -/
theorem Inv.of_same {s t : State} (hI : Inv s) (h1 : t.cfg = s.cfg) (h2 : t.core = s.core) (h3 : t.parked = s.parked)
    (h4 : t.nextHandle = s.nextHandle) (h5 : t.focus = s.focus) (h6 : t.gen = s.gen)
    (h7 : t.orch.program = s.orch.program) : Inv t where
  cfgWf := h1 ▸ hI.cfgWf
  coreOk := h1 ▸ h2 ▸ hI.coreOk
  parkedOk := by rw [h1, h3, h4]; exact hI.parkedOk
  parkedSorted := h3 ▸ hI.parkedSorted
  focusOk := by rw [h5, h3, h4]; exact hI.focusOk
  genOk := h6 ▸ hI.genOk
  programFits := by rw [h1, h7]; exact hI.programFits

/-- Peeling an operation on one instance: it acts on the state with that instance in focus. -/
theorem onInstance_next {h : Nat} {s t : State} {k : State → Host.Outcome State Fault Refusal}
    (he : onInstance h s k = .next t) :
    ∃ s', s.focusOn h = some s' ∧ s'.core.hostMayAct ∧ k s' = .next t := by
  unfold onInstance at he
  split at he
  · cases he
  · split at he
    · exact ⟨_, ‹_›, ‹_›, he⟩
    · cases he

/-- An operation on an instance the host may act on runs on the state with that instance in focus. -/
theorem onInstance_of_coreOf {h : Nat} {s : State} {c : Core} (k : State → Host.Outcome State Fault Refusal)
    (hc : s.coreOf h = some c) (hb : c.busy = false) (hf : c.status ≠ .faulted) :
    ∃ s', onInstance h s k = k s' ∧ s'.core = c ∧ s'.focus = some h ∧ (∀ j, s'.coreOf j = s.coreOf j) ∧
      s.focusOn h = some s' ∧ s' = { s with core := s'.core, focus := s'.focus, parked := s'.parked } := by
  obtain ⟨s', h1, h2, h3, h4, h5⟩ := focusOn_spec hc
  refine ⟨s', ?_, h2, h3, h4, h1, h5⟩
  unfold onInstance
  rw [h1]
  simp only [Core.hostMayAct, h2]
  rw [if_pos ⟨hb, hf⟩]

theorem coreOk_push {cfg : Config} {c : Core} (v : Word) (h : CoreOk cfg c) (hd : cfg.inDepth ≠ some c.inq.length) :
    CoreOk cfg { c with inq := c.inq ++ [v] } :=
  { h with
    inFits := fun b hb => by
      have := h.inFits b hb
      have : b ≠ c.inq.length := fun e => hd (by rw [← e]; exact hb)
      simp only [List.length_append, List.length_cons, List.length_nil]
      omega }

theorem coreOk_pop {cfg : Config} {c : Core} (h : CoreOk cfg c) : CoreOk cfg c.popOutput :=
  { h with
    outFits := fun b hb => by
      have := h.outFits b hb
      simp only [Core.popOutput, List.length_tail]
      omega }

theorem coreOk_start {cfg : Config} {c : Core} (h : CoreOk cfg c) (hf : c.status ≠ .faulted) :
    CoreOk cfg { c with status := .running, busy := true } :=
  { h with
    busyRuns := fun _ => rfl
    latched := by
      have := h.latched
      constructor
      · intro e; cases e
      · intro e; exact absurd (this.2 e) hf
    waits := fun e => by cases e
    halts := fun e => by cases e }

theorem inv_raise {s : State} (t : Trap) (hI : Inv s) : Inv (raise t s) := inv_setCore hI (coreOk_latch t hI.coreOk)

theorem inv_raiseSystem {s : State} (t : Trap) (hI : Inv s) : Inv (raiseSystem t s) :=
  hI.of_same rfl rfl rfl rfl rfl rfl rfl

theorem genOk_start {values : List Word} {g : Generator} (h : genStart values = .ok g) : GenOk g := by
  unfold genStart at h
  split at h
  · cases h
    exact
      { kMax := ‹_›
        oneEach := by simp [Generator.k]
        depthBound := Nat.zero_le _
        counterBound := fun j => by
          simp only [List.getD_eq_getElem?_getD, List.getElem?_replicate]
          split <;> simp }
  · cases h

@[simp] theorem swapAt_length (l : List Word) (x y : Nat) : (swapAt l x y).length = l.length := by simp [swapAt]

theorem getD_set_nat (l : List Nat) (a b v : Nat) :
    (l.set a v).getD b 0 = if a = b ∧ a < l.length then v else l.getD b 0 := by
  simp only [List.getD_eq_getElem?_getD, List.getElem?_set]
  grind

theorem genOk_loop (fuel : Nat) {g : Generator} (h : GenOk g) : GenOk (genLoop fuel g).1 := by
  induction fuel generalizing g with
  | zero => exact { h with }
  | succ n ih =>
    unfold genLoop
    split
    · exact { h with }
    · split
      · refine ⟨?_, ?_, Nat.zero_le _, fun j => ?_⟩
        · show (ite _ _ _ : List Word).length ≤ _
          split <;> simpa using h.kMax
        · show (List.set _ _ _).length = (ite _ _ _ : List Word).length
          rw [List.length_set, h.oneEach]
          split <;> simp [Generator.k]
        · show (List.set _ _ _).getD j 0 ≤ j
          rw [getD_set_nat]
          have := h.counterBound j
          split <;> omega
      · refine ih ⟨h.kMax, ?_, ?_, fun j => ?_⟩
        · show (List.set _ _ _).length = _
          rw [List.length_set]; exact h.oneEach
        · show _ + 1 ≤ g.k
          omega
        · show (List.set _ _ _).getD j 0 ≤ j
          rw [getD_set_nat]
          have := h.counterBound j
          split <;> omega

theorem genOk_next {g : Generator} (h : GenOk g) : GenOk (genNext g).1 := by
  unfold genNext
  split
  · exact h
  · exact h
  · split
    · exact { h with }
    · exact genOk_loop _ h

theorem load_fits {cfg : Config} {text : ProgramText} {ws : List Word} (h : load cfg text = .ok ws) :
    Config.fits cfg.memCap ws.length := by
  unfold load at h
  rcases hl : loadTokens 1 (splitCommas (trimBlanks text)) with t | ws'
  · rw [hl] at h; cases h
  · rw [hl] at h
    simp only [bind, Except.bind] at h
    split at h
    · cases h; assumption
    · cases h

/-- What a step of the host side promises. -/
abbrev Kept (s t : State) : Prop := Inv t ∧ HostMoves s t

theorem Kept.of_focus {h : Nat} {s s' t : State} (hI : Inv s) (hb : s.core.busy = false) (hf : s.focusOn h = some s')
    (hk : Inv s' → s'.core.busy = false → s'.focus = some h → Kept s' t) : Kept s t := by
  obtain ⟨s'', h1, -, h3, h4, -⟩ := focusOn_spec (focusOn_coreOf hf)
  rw [hf] at h1
  cases h1
  have := hk (inv_focusOn hI hb hf) (busy_focusOn hI hb hf) h3
  exact ⟨this.1, .trans_left h4 this.2⟩

theorem kept_commit {s t : State} {r : Except Trap Core} {g : State → State} (hI : Inv s)
    (hf : s.core.status ≠ .faulted) (hr : ∀ c, r = .ok c → CoreOk s.cfg c ∧ HostMove s.core c)
    (hg : ∀ c, (g { s with core := c }).cfg = s.cfg ∧ (g { s with core := c }).core = c ∧
      (g { s with core := c }).parked = s.parked ∧ (g { s with core := c }).nextHandle = s.nextHandle ∧
      (g { s with core := c }).focus = s.focus ∧ (g { s with core := c }).gen = s.gen ∧
      (g { s with core := c }).orch.program = s.orch.program)
    (he : commit r g s = .next t) : Kept s t := by
  unfold commit at he
  split at he
  · cases he
    exact ⟨inv_raise _ hI, .setCore (.latch _ hf) rfl rfl rfl⟩
  · rename_i c
    cases he
    obtain ⟨h1, h2⟩ := hr c rfl
    obtain ⟨g1, g2, g3, g4, g5, g6, g7⟩ := hg c
    exact ⟨(inv_setCore hI h1).of_same g1 g2 g3 g4 g5 g6 g7, .setCore h2 g2 g5 g3⟩

theorem pushInput_ok {cfg : Config} {v : Word} {c c' : Core} (h : c.pushInput cfg v = .ok c') :
    cfg.inDepth ≠ some c.inq.length ∧ c' = { c with inq := c.inq ++ [v] } := by
  unfold Core.pushInput at h
  split at h
  · cases h
  · cases h; exact ⟨‹_›, rfl⟩

theorem startRun_ok {c c' : Core} (h : c.startRun = .ok c') :
    c.status ≠ .halted ∧ c' = { c with status := .running, busy := true } := by
  unfold Core.startRun at h
  split at h
  · cases h
  · cases h; exact ⟨‹_›, rfl⟩

theorem hostMove_pop (c : Core) : HostMove c c.popOutput := by
  rcases h : c.outq with _ | ⟨v, rest⟩
  · have : c.popOutput = c := by
      cases c
      cases h
      rfl
    rw [this]; exact .same
  · have : c.popOutput = { c with outq := rest } := by unfold Core.popOutput; rw [h]; rfl
    rw [this]; exact .pop v rest h

theorem kept_push {s t : State} {h : Nat} (v : State → Word) {g : State → State} (hI : Inv s) (hb : s.core.busy = false)
    (hg : ∀ (s : State) c, (g { s with core := c }).cfg = s.cfg ∧ (g { s with core := c }).core = c ∧
      (g { s with core := c }).parked = s.parked ∧ (g { s with core := c }).nextHandle = s.nextHandle ∧
      (g { s with core := c }).focus = s.focus ∧ (g { s with core := c }).gen = s.gen ∧
      (g { s with core := c }).orch.program = s.orch.program)
    (he : (onInstance h s fun s => commit (s.core.pushInput s.cfg (v s)) g s) = .next t) : Kept s t := by
  obtain ⟨s', h1, h2, h3⟩ := onInstance_next he
  refine .of_focus hI hb h1 fun hI' hb' hf' => ?_
  refine kept_commit hI' h2.2 (fun c hc => ?_) (hg s') h3
  obtain ⟨h4, rfl⟩ := pushInput_ok hc
  exact ⟨coreOk_push _ hI'.coreOk h4, .push _⟩

theorem kept_run {s t : State} {h : Nat} {g : State → State} (hI : Inv s) (hb : s.core.busy = false)
    (hg : ∀ (s : State) c, (g { s with core := c }).cfg = s.cfg ∧ (g { s with core := c }).core = c ∧
      (g { s with core := c }).parked = s.parked ∧ (g { s with core := c }).nextHandle = s.nextHandle ∧
      (g { s with core := c }).focus = s.focus ∧ (g { s with core := c }).gen = s.gen ∧
      (g { s with core := c }).orch.program = s.orch.program)
    (he : (onInstance h s fun s => commit s.core.startRun g s) = .next t) : Kept s t := by
  obtain ⟨s', h1, h2, h3⟩ := onInstance_next he
  refine .of_focus hI hb h1 fun hI' hb' hf' => ?_
  refine kept_commit hI' h2.2 (fun c hc => ?_) (hg s') h3
  obtain ⟨h4, rfl⟩ := startRun_ok hc
  exact ⟨coreOk_start hI'.coreOk h2.2, .start h4 h2.2⟩

theorem kept_create {s t : State} {r : Except Trap (List Word)} {mk : List Word → Core} (hI : Inv s)
    (hr : ∀ ws, r = .ok ws → CoreOk s.cfg (mk ws) ∧ (mk ws).busy = false) (he : createFrom r mk s = .next t) :
    Kept s t := by
  unfold createFrom at he
  split at he
  · cases he
    exact ⟨inv_raiseSystem _ hI, .of_coreOf fun _ _ _ => rfl⟩
  · cases he
    obtain ⟨h1, h2⟩ := hr _ rfl
    refine ⟨(inv_addInstance hI h1 h2).of_same rfl rfl rfl rfl rfl rfl rfl, .of_coreOf fun j c hj => ?_⟩
    have := lt_nextHandle_of_coreOf hI hj
    exact (coreOf_addInstance hI.focusOk _ j).trans (if_neg (by omega))

theorem kept_perform {op : HostOp} {s t : State} (hI : Inv s) (hb : s.core.busy = false)
    (he : perform op s = .next t) : Kept s t := by
  cases op with
  | new text => exact kept_create hI (fun ws h => ⟨coreOk_ofProgram (load_fits h), rfl⟩) he
  | newWithInput text v =>
    exact kept_create hI (fun ws h => ⟨coreOk_ofProgramWithInput v (load_fits h) hI.cfgWf, rfl⟩) he
  | pushInput h v => exact kept_push (fun _ => v) hI hb (fun _ _ => ⟨rfl, rfl, rfl, rfl, rfl, rfl, rfl⟩) he
  | popOutput h =>
    obtain ⟨s', h1, h2, h3⟩ := onInstance_next he
    refine .of_focus hI hb h1 fun hI' hb' hf' => ?_
    cases h3
    exact ⟨(inv_setCore hI' (coreOk_pop hI'.coreOk)).of_same rfl rfl rfl rfl rfl rfl rfl,
      .setCore (hostMove_pop _) rfl rfl rfl⟩
  | run h => exact kept_run hI hb (fun _ _ => ⟨rfl, rfl, rfl, rfl, rfl, rfl, rfl⟩) he
  | runToHalt h => exact kept_run hI hb (fun _ _ => ⟨rfl, rfl, rfl, rfl, rfl, rfl, rfl⟩) he
  | clone h =>
    obtain ⟨s', h1, h2, h3⟩ := onInstance_next he
    refine .of_focus hI hb h1 fun hI' hb' hf' => ?_
    cases h3
    have hc : s'.core.cloned = s'.core := by rw [Core.cloned, ← hb']
    rw [hc]
    refine ⟨(inv_addInstance hI' hI'.coreOk hb').of_same rfl rfl rfl rfl rfl rfl rfl, .of_coreOf fun j c hj => ?_⟩
    have := lt_nextHandle_of_coreOf hI' hj
    exact (coreOf_addInstance hI'.focusOk _ j).trans (if_neg (by omega))
  | drop h =>
    obtain ⟨s', h1, h2, h3⟩ := onInstance_next he
    refine .of_focus hI hb h1 fun hI' hb' hf' => ?_
    cases h3
    refine ⟨(inv_removeInstance hI' h).of_same rfl rfl rfl rfl rfl rfl rfl, fun j c c' hj hj' => ?_⟩
    have := (coreOf_removeInstance hI'.focusOk h j).symm.trans hj'
    split at this
    · cases this
    · rw [hj] at this; cases this; exact .same
  | genStart values =>
    simp only [perform, hostGenStart] at he
    split at he
    · cases he
      exact ⟨inv_raiseSystem _ hI, .of_coreOf fun _ _ _ => rfl⟩
    · cases he
      exact ⟨{ hI with genOk := genOk_start ‹_› }, .of_coreOf fun _ _ _ => rfl⟩
  | genNext =>
    simp only [perform, hostGenNext] at he
    split at he
    · cases he
    · cases he
      exact ⟨{ hI with genOk := genOk_next hI.genOk }, .of_coreOf fun _ _ _ => rfl⟩
  | orchestrate text values =>
    simp only [perform, orchestrate] at he
    split at he
    · cases he
      exact ⟨inv_raiseSystem _ hI, .of_coreOf fun _ _ _ => rfl⟩
    · split at he
      · cases he
        exact ⟨inv_raiseSystem _ hI, .of_coreOf fun _ _ _ => rfl⟩
      · split at he
        · cases he
          exact ⟨inv_raiseSystem _ hI, .of_coreOf fun _ _ _ => rfl⟩
        · cases he
          exact ⟨{ hI with genOk := genOk_start ‹_›, programFits := load_fits ‹_› }, .of_coreOf fun _ _ _ => rfl⟩

theorem kept_hostReturn {s t : State} (hI : Inv s) (hf : s.core.status ≠ .faulted) (he : hostReturn s = .next t) :
    Kept s t := by
  unfold hostReturn at he
  split at he
  · cases he
  · cases he
    exact ⟨hI.of_same rfl rfl rfl rfl rfl rfl rfl, .of_coreOf fun _ _ _ => rfl⟩
  · split at he
    · cases he
    · cases he
      exact ⟨hI.of_same rfl rfl rfl rfl rfl rfl rfl, .of_coreOf fun _ _ _ => rfl⟩
    · cases he
      exact ⟨inv_raise _ hI, .setCore (.latch _ hf) rfl rfl rfl⟩

theorem kept_orchNext {s t : State} (hI : Inv s) (he : orchNext s = .next t) : Kept s t := by
  unfold orchNext at he
  have hg : GenOk (genNext s.gen).1 := genOk_next hI.genOk
  split at he
  · rename_i g e
    rw [e] at hg
    cases he
    exact ⟨{ hI with genOk := hg }, .of_coreOf fun _ _ _ => rfl⟩
  · rename_i g p e
    rw [e] at hg
    cases he
    obtain ⟨h1, h2, h3⟩ := buildMachines_spec s.orch.program p hI hI.programFits
    refine ⟨{ h1 with genOk := hg, programFits := ?_ }, .of_coreOf fun j c hj => ?_⟩
    · show Config.fits (buildMachines s.orch.program p s).cfg.memCap _
      rw [h2]; exact hI.programFits
    · have := lt_nextHandle_of_coreOf hI hj
      exact (h3 j).trans (if_neg (by omega))

theorem kept_orchWaiting {s : State} (hI : Inv s) : Kept s (orchWaiting s) := by
  unfold orchWaiting
  split
  · exact ⟨(inv_setCore hI (coreOk_pop hI.coreOk)).of_same rfl rfl rfl rfl rfl rfl rfl,
      .setCore (hostMove_pop _) rfl rfl rfl⟩
  · exact ⟨inv_raiseSystem _ hI, .of_coreOf fun _ _ _ => rfl⟩

theorem kept_orchCompleted {s : State} (v : Word) (hI : Inv s) : Kept s (orchCompleted v s) := by
  unfold orchCompleted
  split
  · obtain ⟨h1, h2, h3⟩ := dropMachines_spec s.orch.machines hI
    refine ⟨{ h1 with programFits := ?_ }, fun j c c' hj hj' => ?_⟩
    · show Config.fits (dropMachines s.orch.machines s).cfg.memCap s.orch.program.length
      rw [h2]; exact hI.programFits
    · have := (h3 j).symm.trans hj'
      split at this
      · cases this
      · rw [hj] at this; cases this; exact .same
  · exact ⟨hI.of_same rfl rfl rfl rfl rfl rfl rfl, .of_coreOf fun _ _ _ => rfl⟩

theorem kept_orchCollect {s t : State} (hI : Inv s) (hb : s.core.busy = false) (he : orchCollect s = .next t) :
    Kept s t := by
  obtain ⟨s', h1, h2, h3⟩ := onInstance_next he
  refine .of_focus hI hb h1 fun hI' hb' hf' => ?_
  split at h3
  · cases h3
  · cases h3; exact kept_orchWaiting hI'
  · cases h3; exact kept_orchCompleted _ hI'

/-- A step of the host side keeps the invariant, and does to each instance a host move. -/
theorem kept_hostStep {s t : State} (hI : Inv s) (h1 : ¬ s.stopped) (hb : s.core.busy = false)
    (he : hostStep s = .next t) : Kept s t := by
  have hf : s.core.status ≠ .faulted := fun e => h1 (.inr (.inl e))
  unfold hostStep at he
  split at he
  · unfold orchStep at he
    split at he
    · unfold hostNext at he
      split at he
      · cases he
      · rename_i op rest hs
        have hI' : Inv { s with script := rest } := hI.of_same rfl rfl rfl rfl rfl rfl rfl
        have := kept_perform hI' hb he
        exact ⟨this.1, this.2⟩
    · exact kept_orchNext hI he
    · exact kept_push (fun s => s.orch.carried) hI hb (fun _ _ => ⟨rfl, rfl, rfl, rfl, rfl, rfl, rfl⟩) he
    · exact kept_run hI hb (fun _ _ => ⟨rfl, rfl, rfl, rfl, rfl, rfl, rfl⟩) he
    · exact kept_orchCollect hI hb he
  · exact kept_hostReturn hI hf he
  · exact kept_hostReturn hI hf he

/-! ### A step is a cycle or a host step -/

/-- What the next state of a step comes from: a cycle of the core in focus, or a host step. -/
theorem step_next_cases {s t : State} (h : step s = .next t) :
    ¬ s.stopped ∧ ((s.core.enabled ∧ cycle s = .next t) ∨ (s.core.busy = false ∧ hostStep s = .next t)) := by
  rw [step, agentStep] at h
  split at h
  · cases h
  · refine ⟨‹_›, ?_⟩
    split at h
    · exact .inl ⟨‹_›, h⟩
    · split at h
      · cases h
      · exact .inr ⟨by simpa using ‹¬ s.core.busy = true›, h⟩

theorem coreOk_apply {cfg : Config} {c c' : Core} {i : Instr} {d : Directive} (w : Nat) (h : CoreOk cfg c)
    (he : c.enabled) (hs : EffectSpec cfg c i c' d) : CoreOk cfg (c'.apply w d) where
  memWf := by
    rw [apply_mem]
    rcases hs.mem with e | ⟨q, n, v, -, -, -, e⟩ <;> rw [e]
    · exact h.memWf
    · exact Memory.wf_store h.memWf n v
  memFits := by
    rw [apply_mem]
    rcases hs.mem with e | ⟨q, n, v, -, -, hf, e⟩ <;> rw [e]
    · exact h.memFits
    · intro b hb
      rw [Memory.store_len]
      exact max_le (h.memFits b hb) (hf b hb)
  inFits := by
    rw [apply_inq]
    rcases hs.inq with e | ⟨q, v, -, e⟩
    · rw [e]; exact h.inFits
    · intro b hb
      have := h.inFits b hb
      rw [e, List.length_cons] at this
      omega
  outFits := by
    rw [apply_outq]
    rcases hs.outq with e | ⟨a, v, -, hd, e⟩
    · rw [e]; exact h.outFits
    · intro b hb
      have := h.outFits b hb
      have : b ≠ c.outq.length := fun x => hd (by rw [← x]; exact hb)
      rw [e]
      simp only [List.length_append, List.length_cons, List.length_nil]
      omega
  busyRuns := by cases d <;> simp [hs.busy, hs.status, he.1, he.2]
  latched := by
    rw [apply_fault, hs.fault]
    have h0 : c.fault.code = none := by
      by_contra e
      have := h.latched.2 e
      rw [he.2] at this
      cases this
    cases d <;> simp [hs.status, he.2, h0]
  waits := by cases d <;> simp [hs.status, he.2]
  halts := by cases d <;> simp [hs.status, he.2]

/-- A cycle keeps the invariant. -/
theorem inv_cycle {s t : State} (hI : Inv s) (he : s.core.enabled) (h : cycle s = .next t) : Inv t := by
  rcases cycle_cases s with ⟨i, c, d, -, h2, h3⟩ | ⟨tr, h3⟩
  · rw [h3] at h; cases h
    exact inv_setCore hI (coreOk_apply _ hI.coreOk he (effect_ok h2))
  · rw [h3] at h; cases h
    exact inv_raise _ hI

end Sys2Proof.Machine
end

