-- ==== Sys2Proof/Laws/Generator.lean ====
section
/-! SUPPORT. The generator moves positions, not values: what it emits for any values is what it emits for their indices,
renamed. -/

namespace Sys2Proof.Machine

/-- The generator with every value renamed. -/
def Generator.rename (f : Word → Word) (g : Generator) : Generator := { g with arrangement := g.arrangement.map f }

theorem swapAt_map (f : Word → Word) {l : List Word} {x y : Nat} (hx : x < l.length) (hy : y < l.length) :
    swapAt (l.map f) x y = (swapAt l x y).map f := by
  simp [swapAt, List.map_set, List.getD_eq_getElem?_getD, hx, hy]

theorem genLoop_rename (f : Word → Word) (fuel : Nat) {g : Generator} (h : GenOk g) :
    genLoop fuel (g.rename f) = ((genLoop fuel g).1.rename f, (genLoop fuel g).2.map (List.map f)) := by
  induction fuel generalizing g with
  | zero => rfl
  | succ n ih =>
    have hk : (g.rename f).k = g.k := by simp [Generator.rename, Generator.k]
    rw [genLoop, genLoop, hk]
    by_cases h1 : g.k ≤ g.depth
    · simp [Generator.rename, h1]
    · have hd : (g.rename f).depth = g.depth := rfl
      have hc : (g.rename f).counters = g.counters := rfl
      rw [hd, hc, if_neg h1, if_neg h1]
      by_cases h2 : g.counters.getD g.depth 0 < g.depth
      · rw [if_pos h2, if_pos h2]
        have hs : ∀ x, x ≤ g.depth →
            swapAt (g.rename f).arrangement x g.depth = (swapAt g.arrangement x g.depth).map f := fun x hx =>
          swapAt_map f (by show x < g.k; omega) (by show g.depth < g.k; omega)
        simp only [hs 0 (Nat.zero_le _), hs _ (Nat.le_of_lt h2)]
        split <;> simp [Generator.rename]
      · rw [if_neg h2, if_neg h2]
        have h' : GenOk { g with counters := g.counters.set g.depth 0, depth := g.depth + 1 } :=
          ⟨h.kMax, by rw [List.length_set]; exact h.oneEach, by show g.depth + 1 ≤ g.k; omega, fun j => by
            show (List.set _ _ _).getD j 0 ≤ j
            rw [getD_set_nat]
            have := h.counterBound j
            split <;> omega⟩
        exact ih h'

theorem genNext_rename (f : Word → Word) {g : Generator} (h : GenOk g) :
    genNext (g.rename f) = ((genNext g).1.rename f, (genNext g).2.map (List.map f)) := by
  have hk : (g.rename f).k = g.k := by simp [Generator.rename, Generator.k]
  have hs : (g.rename f).genState = g.genState := rfl
  have hf : (g.rename f).first = g.first := rfl
  unfold genNext
  rw [hs, hf, hk]
  rcases g.genState with _ | _ | _
  · rfl
  · rcases hb : g.first with _ | _
    · exact genLoop_rename f _ h
    · rfl
  · rfl

theorem emissions_rename (f : Word → Word) (n : Nat) {g : Generator} (h : GenOk g) :
    emissions n (g.rename f) =
      ((emissions n g).1.map (Option.map (List.map f)), (emissions n g).2.rename f) := by
  induction n generalizing g with
  | zero => rfl
  | succ n ih => simp [emissions, genNext_rename f h, ih (genOk_next h)]

/-- A generator that is Done emits nothing more. -/
theorem emissions_done (n : Nat) {g : Generator} (h : g.genState = .done) :
    (emissions n g).1 = List.replicate n none := by
  have hn : genNext g = (g, none) := by unfold genNext; rw [h]
  induction n with
  | zero => rfl
  | succ n ih => simp [emissions, hn, ih, List.replicate_succ]

end Sys2Proof.Machine
end

