-- ==== Sys2Proof/Laws/Loader.lean ====
section
/-! SUPPORT. The loader on the decimal text of a word: its digits, its tokens, its surrounding whitespace. -/

namespace Sys2Proof.Machine

theorem digitsValue_append (ds : List Char) (c : Char) :
    digitsValue (ds ++ [c]) = 10 * digitsValue ds + (c.toNat - 48) := by
  simp [digitsValue, List.foldl_append]

theorem toNat_digitChar {d : Nat} (h : d < 10) : (Char.ofNat (48 + d)).toNat = 48 + d := by
  interval_cases d <;> rfl

theorem isDigitChar_digit {d : Nat} (h : d < 10) : isDigitChar (Char.ofNat (48 + d)) = true := by
  simp [isDigitChar, toNat_digitChar h]; omega

theorem decimalDigits_all (fuel n : Nat) : (decimalDigits fuel n).all isDigitChar = true := by
  induction fuel generalizing n with
  | zero => rfl
  | succ f ih =>
    rw [decimalDigits, List.all_append]
    have h : isDigitChar (Char.ofNat (48 + n % 10)) = true := isDigitChar_digit (Nat.mod_lt _ (by decide))
    split
    · simpa using h
    · simpa [h] using ih (n / 10)

theorem digitsValue_decimalDigits {fuel n : Nat} (h : n < 10 ^ fuel) : digitsValue (decimalDigits fuel n) = n := by
  induction fuel generalizing n with
  | zero => simp at h; subst h; rfl
  | succ f ih =>
    rw [decimalDigits, digitsValue_append, toNat_digitChar (Nat.mod_lt _ (by decide))]
    split
    · show 10 * 0 + _ = n; omega
    · rw [ih (by rw [pow_succ] at h; omega)]; omega

theorem decimalDigits_ne_nil (fuel n : Nat) : decimalDigits (fuel + 1) n ≠ [] := by simp [decimalDigits]

/-- A digit is neither whitespace nor a comma nor a sign. -/
theorem digit_props {c : Char} (h : isDigitChar c = true) : isBlank c = false ∧ c ≠ ',' ∧ c ≠ '-' := by
  simp [isDigitChar] at h
  refine ⟨by simp [isBlank]; omega, ?_, ?_⟩ <;> rintro rfl <;> simp at h

/-- No character of a word's text is whitespace or a comma. -/
theorem decimalText_props (w : Word) : ∀ c ∈ decimalText w, isBlank c = false ∧ c ≠ ',' := by
  intro c hc
  unfold decimalText at hc
  have hd : ∀ n, c ∈ decimalDigits 20 n → isBlank c = false ∧ c ≠ ',' := fun n h =>
    have := digit_props (List.all_eq_true.1 (decimalDigits_all 20 n) c h)
    ⟨this.1, this.2.1⟩
  split at hc
  · rcases List.mem_cons.1 hc with rfl | hc
    · decide
    · exact hd _ hc
  · exact hd _ hc

theorem decimalText_ne_nil (w : Word) : decimalText w ≠ [] := by
  unfold decimalText
  split
  · simp
  · exact decimalDigits_ne_nil 19 _

/-- The token of a word is read as that word's integer. -/
theorem tokenInt_decimalText (w : Word) : tokenInt (decimalText w) = some w.toInt := by
  have hw := inWord_toInt w
  rw [InWord] at hw
  have hv : digitsValue (decimalDigits 20 w.toInt.natAbs) = w.toInt.natAbs :=
    digitsValue_decimalDigits (by omega)
  have ha := decimalDigits_all 20 w.toInt.natAbs
  unfold decimalText
  split
  · have hn := decimalDigits_ne_nil 19 w.toInt.natAbs
    have hd : '-' = '-' := rfl
    rw [tokenInt, if_pos hd, if_pos ⟨hn, ha⟩, hv]
    congr 1; omega
  · rcases hd : decimalDigits 20 w.toInt.natAbs with _ | ⟨c, ds⟩
    · exact absurd hd (decimalDigits_ne_nil 19 _)
    · rw [hd] at ha hv
      have hc : c ≠ '-' := (digit_props (by simp at ha; exact ha.1)).2.2
      rw [tokenInt, if_neg hc, if_pos ha, hv]
      congr 1; omega

/-- Splitting at a comma that follows comma-free text. -/
theorem splitCommas_cons (t rest : List Char) (h : ∀ c ∈ t, c ≠ ',') :
    splitCommas (t ++ ',' :: rest) = t :: splitCommas rest := by
  induction t with
  | nil => simp [splitCommas]
  | cons c t ih => simp [splitCommas, h c (by simp), ih fun c hc => h c (by simp [hc])]

theorem splitCommas_last (t : List Char) (h : ∀ c ∈ t, c ≠ ',') : splitCommas t = [t] := by
  induction t with
  | nil => rfl
  | cons c t ih => simp [splitCommas, h c (by simp), ih fun c hc => h c (by simp [hc])]

theorem splitCommas_programText (ws : List Word) (h : ws ≠ []) :
    splitCommas (programText ws) = ws.map decimalText := by
  induction ws with
  | nil => exact absurd rfl h
  | cons w ws ih =>
    rcases ws with _ | ⟨v, ws⟩
    · exact splitCommas_last _ fun c hc => (decimalText_props w c hc).2
    · rw [programText, splitCommas_cons _ _ fun c hc => (decimalText_props w c hc).2, ih (by simp)]
      rfl

theorem loadTokens_decimalText (m : Nat) (ws : List Word) : loadTokens m (ws.map decimalText) = .ok ws := by
  induction ws generalizing m with
  | nil => rfl
  | cons w ws ih =>
    simp [loadTokens, tokenInt_decimalText, inWord_toInt, ih, bind, Except.bind]

/-- Whitespace at both ends of a text that has none is trimmed away. -/
theorem trimBlanks_of_solid {before after t : List Char} (hb : before.all isBlank = true)
    (ha : after.all isBlank = true) (ht : ∀ c ∈ t, isBlank c = false) (hn : t ≠ []) :
    trimBlanks (before ++ t ++ after) = t := by
  have hd : ∀ (pre u : List Char), pre.all isBlank = true → (pre ++ u).dropWhile isBlank = u.dropWhile isBlank := by
    intro pre u h
    induction pre with
    | nil => rfl
    | cons c pre ih => simp at h; simp [h.1, ih (by simpa using h.2)]
  have hs : ∀ (u v : List Char), u ≠ [] → (∀ c ∈ u, isBlank c = false) → (u ++ v).dropWhile isBlank = u ++ v := by
    intro u v h1 h2
    rcases u with _ | ⟨c, u⟩
    · exact absurd rfl h1
    · simp [h2 c (by simp)]
  unfold trimBlanks
  rw [List.append_assoc, hd _ _ hb, hs _ _ hn ht, List.reverse_append, hd _ _ (by simpa using ha)]
  have := hs t.reverse [] (by simpa using hn) (by simpa using ht)
  simp only [List.append_nil] at this
  rw [this, List.reverse_reverse]

end Sys2Proof.Machine
end

