-- ==== Sys2Proof/Laws/PerInstr.lean ====
section
/-! SUPPORT. Statements made of every instruction as syntax, one lemma per constructor. -/

namespace Sys2Proof.Laws.EncodedShape

/-- An instruction occupies as many words as its width says, between 1 and 4 (30_encoding.md rules R80 and R85). -/
def Statement (i : Instr) : Prop := (encode i).length = i.width ∧ 1 ≤ i.width ∧ i.width ≤ 4

theorem add (a b d : Param) : Statement (.add a b d) := by simp [Statement, encode, encode3, Instr.width]
theorem mul (a b d : Param) : Statement (.mul a b d) := by simp [Statement, encode, encode3, Instr.width]
theorem inp (d : Param) : Statement (.inp d) := by simp [Statement, encode, encode1, Instr.width]
theorem out (a : Param) : Statement (.out a) := by simp [Statement, encode, encode1, Instr.width]
theorem jnz (c t : Param) : Statement (.jnz c t) := by simp [Statement, encode, encode2, Instr.width]
theorem jz (c t : Param) : Statement (.jz c t) := by simp [Statement, encode, encode2, Instr.width]
theorem lt (a b d : Param) : Statement (.lt a b d) := by simp [Statement, encode, encode3, Instr.width]
theorem eq (a b d : Param) : Statement (.eq a b d) := by simp [Statement, encode, encode3, Instr.width]
theorem arb (a : Param) : Statement (.arb a) := by simp [Statement, encode, encode1, Instr.width]
theorem hlt : Statement .hlt := by simp [Statement, encode, Instr.width]

end Sys2Proof.Laws.EncodedShape
end

