-- ==== Sys2Proof/Tests/Slice0.lean ====
section
/-! SUPPORT. Tests of the model. The expected values are those of spec/95_test_vectors.md, by the name of the vector, or
of the example of the rule a test names. The second half shows, for every statement that has hypotheses, a concrete case
that meets them all. -/

namespace Sys2Proof.Tests

open Sys2Proof.Machine

/-- A machine in a run on the words `ws`. -/
def running (ws : List Word) (rb : Word := 0) (inq outq : List Word := []) : State :=
  { State.reset with core := { Core.ofProgram ws with busy := true, rb := rb, inq := inq, outq := outq } }

/-- The same with other parameters. -/
def runningWith (cfg : Config) (ws : List Word) (rb : Word := 0) (inq outq : List Word := []) : State :=
  { running ws rb inq outq with cfg := cfg }

def wrapping : Config := { Config.default with overflowMode := .wrap }
def lenient : Config := { Config.default with strictModeDigits := false }
def eightWords : Config := { Config.default with memCap := some 8 }
def oneOutput : Config := { Config.default with outDepth := some 1 }
def oneInput : Config := { Config.default with inDepth := some 1 }

/-- The state one step leaves, where it leaves one. -/
def after (s : State) : Option State :=
  match step s with
  | .next t => some t
  | .fault _ => none
  | .refused _ => none

/-- Memory and program counter after one step. -/
def memAndPc (s : State) : Option (List Word × UWord) := (after s).map fun t => (t.core.mem.words, t.core.pc)

/-- The fault latched by one step: its fault, detail, program counter and address. -/
def faultOf (s : State) : Option FaultRec := (after s).map fun t => t.core.fault

def pos (w : Word) : Param := ⟨.position, w⟩
def imm (w : Word) : Param := ⟨.immediate, w⟩
def rel (w : Word) : Param := ⟨.relative, w⟩

/-- The decoder's answer on words, without its error. -/
def decoded (strict : Bool) (ws : List Word) : Option Instr :=
  match decode strict ws with
  | .ok i => some i
  | .error _ => none

/-! ### Well-formedness refuses an Immediate destination (rule R95), and a capacity of 0 (rule R7) -/

theorem test_wf_add : ¬ (Instr.add (pos 0) (pos 0) (imm 0)).WellFormed := by decide
theorem test_wf_mul : ¬ (Instr.mul (pos 0) (pos 0) (imm 0)).WellFormed := by decide
theorem test_wf_inp : ¬ (Instr.inp (imm 5)).WellFormed := by decide
theorem test_wf_lt : ¬ (Instr.lt (imm 1) (imm 2) (imm 3)).WellFormed := by decide
theorem test_wf_eq : ¬ (Instr.eq (imm 1) (imm 2) (imm 3)).WellFormed := by decide
theorem test_wf_others : (Instr.out (imm 1)).WellFormed ∧ (Instr.jnz (imm 1) (imm 2)).WellFormed ∧
    (Instr.add (imm 1) (imm 2) (rel 3)).WellFormed := by decide
theorem test_wf_config : ¬ Config.wf { Config.default with memCap := some 0 } ∧
    ¬ Config.wf { Config.default with inDepth := some 0 } ∧ ¬ Config.wf { Config.default with outDepth := some 0 } ∧
      Config.wf eightWords := by decide

/-! ### Decoding: words written out from the digit pictures of 30_encoding.md rule R86 -/

/-- DC1 and DC6: digits 01002 and 22202. -/
theorem test_decode_mul : decoded true [1002, 4, 3, 4] = some (.mul (pos 4) (imm 3) (pos 4)) ∧
    decoded true [22202, 0, 1, 2] = some (.mul (rel 0) (rel 1) (rel 2)) := by decide

/-- DC5 and DC9: digits 20001 and 11101. -/
theorem test_decode_add : decoded true [20001, 7, 8, 9] = some (.add (pos 7) (pos 8) (rel 9)) ∧
    decoded true [11101, 1, 2, 3] = some (.add (imm 1) (imm 2) (imm 3)) := by decide

/-- DC10 and the example of rule R160. -/
theorem test_decode_inp : decoded true [103, 5] = some (.inp (imm 5)) ∧ decoded true [3, 9] = some (.inp (pos 9)) := by
  decide

/-- DC3. -/
theorem test_decode_out : decoded true [204, -1] = some (.out (rel (-1))) := by decide

/-- DC7 and DC8: in F2 the hundreds digit is the condition's, the thousands digit the target's. -/
theorem test_decode_jnz : decoded true [2005, 1, 2] = some (.jnz (pos 1) (rel 2)) ∧
    decoded true [1205, 1, 2] = some (.jnz (rel 1) (imm 2)) := by decide

/-- JP9 and JP8. -/
theorem test_decode_jz : decoded true [106, 0, 3, 42] = some (.jz (imm 0) (pos 3)) ∧
    decoded true [1006, 100, 9] = some (.jz (pos 100) (imm 9)) := by decide

/-- RL4 and RL8. -/
theorem test_decode_lt : decoded true [7, 0, 4, 0, 3] = some (.lt (pos 0) (pos 4) (pos 0)) ∧
    decoded true [11107, 1, 2, 3] = some (.lt (imm 1) (imm 2) (imm 3)) := by decide

/-- DC2. -/
theorem test_decode_eq : decoded true [1108, -1, 8, 3] = some (.eq (imm (-1)) (imm 8) (pos 3)) := by decide

/-- BH3 and BH4. -/
theorem test_decode_arb : decoded true [9, 0] = some (.arb (pos 0)) ∧ decoded true [209, 1] = some (.arb (rel 1)) := by
  decide

/-- DC4. -/
theorem test_decode_hlt : decoded true [99, 0, 0, 0] = some .hlt ∧ Instr.hlt.width = 1 := by decide

/-- DC11 to DC16: InvalidOpcode(0, w). -/
theorem test_invalid_opcodes : ([0, 10, 98, 100, -1, -99].map fun w => faultOf (running [w, 0, 0, 0, 0])) =
    ([0, 10, 98, 100, -1, -99] : List Word).map fun w => some ⟨some .invalidOpcode, 0, 0, w⟩ := by decide

/-- DC17 to DC23: InvalidMode(detail, w). -/
theorem test_invalid_modes : ([199, 399, 303, 30001, 10104, 100003, 21209].map fun w =>
      (faultOf (running [w, 0, 0, 0, 0])).map fun f => (f.code, f.detail, f.addr)) =
    ([(199, 0), (399, 0), (303, 1), (30001, 3), (10104, 0), (100003, 0), (21209, 0)] : List (Word × Nat)).map fun x =>
      some (some .invalidMode, x.2, x.1) := by decide

/-- DC24 to DC26: FetchOutOfRange(0, first index at or past `len`); the range check comes before the mode check. -/
theorem test_fetch_faults : faultOf (running [1101, 1, 1]) = some ⟨some .fetchOutOfRange, 0, 0, 3⟩ ∧
    faultOf (running [3301, 1]) = some ⟨some .fetchOutOfRange, 0, 0, 2⟩ ∧
    ((after (running [104, 1])).bind faultOf) = some ⟨some .fetchOutOfRange, 0, 2, 2⟩ := by decide

/-- DC17, DC18 and DC21 to DC23 with `STRICT_MODE_DIGITS = false`. -/
theorem test_lenient_digits : decoded false [199] = some .hlt ∧ decoded false [399] = some .hlt ∧
    decoded false [10104, 3] = some (.out (imm 3)) ∧ decoded false [100003, 3] = some (.inp (pos 3)) ∧
    decoded false [21209, 3] = some (.arb (rel 3)) := by decide

/-- Each opcode of the table with operand words of zeros, as the host numbers an instruction's bits. -/
theorem test_table_words : ([1, 2, 3, 4, 5, 6, 7, 8, 9, 99].map fun w => decodeTableWord 64 w) =
    ([.add (pos 0) (pos 0) (pos 0), .mul (pos 0) (pos 0) (pos 0), .inp (pos 0), .out (pos 0), .jnz (pos 0) (pos 0),
      .jz (pos 0) (pos 0), .lt (pos 0) (pos 0) (pos 0), .eq (pos 0) (pos 0) (pos 0), .arb (pos 0), .hlt] :
        List Instr).map some := by decide

/-- The second word stands above bit 63: 104 with the parameter word 5. -/
theorem test_table_second_word : decodeTableWord 128 (104 + 5 * 2 ^ 64) = some (.out (imm 5)) ∧
    decodeTableWord 64 (104 + 5 * 2 ^ 64) = some (.out (imm 0)) := by decide

/-- The placed instruction is what the next step runs: OUT #5, at reset. -/
theorem test_with_fetch_word :
    (after (State.reset.withFetchWord 128 (104 + 5 * 2 ^ 64))).map (fun t => (t.core.outq, t.core.pc)) =
      some ([5], 2) := by decide

/-! ### One step of each instruction -/

/-- AR1 and AR2: the sum, and memory that grows with zeros. -/
theorem test_add : memAndPc (running [1101, -7, 3, 5, 0, 0]) = some ([1101, -7, 3, 5, 0, -4], 4) ∧
    memAndPc (running [1101, 1, 1, 10]) = some ([1101, 1, 1, 10, 0, 0, 0, 0, 0, 0, 2], 4) := by decide

/-- AR5, AR6, AR14, AR15 and AR19. -/
theorem test_add_corners :
    faultOf (running [1101, 9223372036854775807, 1, 0]) = some ⟨some .arithmeticOverflow, 1, 0, 0⟩ ∧
    memAndPc (runningWith wrapping [1101, 9223372036854775807, 1, 0]) =
      some ([-9223372036854775808, 9223372036854775807, 1, 0], 4) ∧
    faultOf (running [11101, 1, 2, 3]) = some ⟨some .invalidWrite, 1, 0, 0⟩ ∧
    faultOf (running [21101, 1, 2, -1]) = some ⟨some .invalidWrite, 2, 0, -1⟩ ∧
    faultOf (running [201, 1, 0, 0] 9223372036854775807) = some ⟨some .arithmeticOverflow, 2, 0, 0⟩ := by decide

/-- AR12 and AR13. -/
theorem test_mul : memAndPc (running [1102, 34915192, 34915192, 0]) =
      some ([1219070632396864, 34915192, 34915192, 0], 4) ∧
    memAndPc (running [22202, 0, 1, 2, 6, 7] 4) = some ([22202, 0, 1, 2, 6, 7, 42], 4) := by decide

/-- AR10 and AR11. -/
theorem test_mul_corners :
    faultOf (running [1102, -9223372036854775808, -1, 0]) = some ⟨some .arithmeticOverflow, 1, 0, 0⟩ ∧
    memAndPc (runningWith wrapping [1102, -9223372036854775808, -1, 0]) =
      some ([-9223372036854775808, -9223372036854775808, -1, 0], 4) := by decide

/-- RL1, RL2 and RL3: signed, strict. -/
theorem test_lt : memAndPc (running [1107, -1, 0, 4]) = some ([1107, -1, 0, 4, 1], 4) ∧
    memAndPc (running [1107, 5, 5, 4]) = some ([1107, 5, 5, 4, 0], 4) ∧
    memAndPc (running [1107, -9223372036854775808, 9223372036854775807, 4]) =
      some ([1107, -9223372036854775808, 9223372036854775807, 4, 1], 4) := by decide

/-- RL4: a source that is the destination too. -/
theorem test_lt_in_place : memAndPc (running [7, 0, 4, 0, 3]) = some ([0, 0, 4, 0, 3], 4) := by decide

/-- RL5 and RL6. -/
theorem test_eq : memAndPc (running [8, 100, 200, 0]) = some ([1, 100, 200, 0], 4) ∧
    memAndPc (running [1108, 3, 4, 4]) = some ([1108, 3, 4, 4, 0], 4) := by decide

/-- JP1, JP2, JP3 and JP10. -/
theorem test_jnz : ((after (running [1105, 1, 7])).map fun t => t.core.pc) = some 7 ∧
    ((after (running [1105, 0, 7])).map fun t => t.core.pc) = some 3 ∧
    ((after (running [1105, 0, -5])).map fun t => t.core.pc) = some 3 ∧
    ((after (running [2105, 1, 1, 17] 2)).map fun t => t.core.pc) = some 17 := by decide

/-- JP4. -/
theorem test_jnz_negative_target : faultOf (running [1105, 1, -5]) = some ⟨some .invalidJumpTarget, 0, 0, -5⟩ := by
  decide

/-- JP6, JP7, JP8 and JP9. -/
theorem test_jz : ((after (running [1106, 0, 7])).map fun t => t.core.pc) = some 7 ∧
    ((after (running [1106, 5, 7])).map fun t => t.core.pc) = some 3 ∧
    ((after (running [1006, 100, 9])).map fun t => t.core.pc) = some 9 ∧
    ((after (running [106, 0, 3, 42])).map fun t => t.core.pc) = some 42 := by decide

/-- JP11: the target is read even when the jump is not taken. -/
theorem test_jz_reads_its_target : faultOf (running [106, 5, -1]) = some ⟨some .negativeReadAddress, 0, 0, -1⟩ := by
  decide

/-- IO3 and IO6. -/
theorem test_inp :
    ((after (running [3, 4] 0 [5, 6])).map fun t => (t.core.mem.words, t.core.inq, t.core.pc)) =
      some ([3, 4, 0, 0, 5], [6], 2) ∧
    ((after (running [203, -5, 0, 0, 0, 0] 5 [7])).map fun t => t.core.mem.words) = some [7, -5, 0, 0, 0, 0] := by decide

/-- IO4 and IO5: the queue is looked at first. -/
theorem test_inp_corners :
    ((after (running [103, 5])).map fun t => (t.core.status, t.core.busy, t.core.result, t.core.pc)) =
      some (.waiting, false, .waiting, 0) ∧
    ((after (running [103, 5] 0 [4])).map fun t => (t.core.fault, t.core.inq)) =
      some (⟨some .invalidWrite, 1, 0, 0⟩, [4]) := by decide

/-- IO8 and IO10. -/
theorem test_out : ((after (running [4, 2, 77])).map fun t => (t.core.outq, t.core.pc)) = some ([77], 2) ∧
    ((after (running [204, 1, 55] 1)).map fun t => t.core.outq) = some [55] := by decide

/-- IO11 and IO12. -/
theorem test_out_corners : faultOf (running [4, -2]) = some ⟨some .negativeReadAddress, 0, 0, -2⟩ ∧
    ((after (runningWith oneOutput [104, 3] 0 [] [3])).map fun t => (t.core.fault, t.core.outq)) =
      some (⟨some .capacityExceeded, 2, 0, 0⟩, [3]) := by decide

/-- BH2 and BH4: a base below zero is legal, and the operand is read with the old base. -/
theorem test_arb : ((after (running [109, -7])).map fun t => (t.core.rb, t.core.pc)) = some (-7, 2) ∧
    ((after (running [209, 1, 0, 0, 10] 3)).map fun t => t.core.rb) = some 13 := by decide

/-- BH5 and BH6. -/
theorem test_arb_overflow :
    ((after (running [109, 1] 9223372036854775807)).map fun t => (t.core.fault, t.core.rb)) =
      some (⟨some .arithmeticOverflow, 3, 0, 0⟩, 9223372036854775807) ∧
    ((after (runningWith wrapping [109, 1] 9223372036854775807)).map fun t => t.core.rb) =
      some (-9223372036854775808) := by decide

/-- BH9 and BH8. -/
theorem test_hlt :
    ((after (running [99] 0 [] [3, 4])).map fun t => (t.core.status, t.core.result, t.core.outq, t.core.pc)) =
      some (.halted, .completed 4, [3, 4], 0) ∧
    faultOf (running [99]) = some ⟨some .haltWithoutOutput, 0, 0, 0⟩ := by decide

/-- AR17 and AR18: `MEM_CAP = 8`. -/
theorem test_memory_capacity :
    ((after (runningWith eightWords [1101, 1, 1, 8])).map fun t => (t.core.fault, t.core.mem.len)) =
      some (⟨some .capacityExceeded, 1, 0, 8⟩, 4) ∧
    ((after (runningWith eightWords [1101, 1, 1, 7])).map fun t => t.core.mem.words) =
      some [1101, 1, 1, 7, 0, 0, 0, 2] := by decide

/-- MM4: a read at the last index is 0 and changes nothing. -/
theorem test_read_at_the_last_index :
    ((after (running [4, 9223372036854775807])).map fun t => (t.core.outq, t.core.mem.len)) = some ([0], 2) := by
  decide

/-! ### The loader (rule R180) -/

/-- The words a text loads as. -/
def loaded (text : String) : Option (List Word) :=
  match load Config.default text.toList with
  | .ok ws => some ws
  | .error _ => none

/-- The fault a text raises. -/
def loadFault (text : String) : Option Trap :=
  match load Config.default text.toList with
  | .ok _ => none
  | .error t => some t

theorem test_loader_reads : loaded "1,2,3" = some [1, 2, 3] ∧ loaded " 1,2,3\n" = some [1, 2, 3] ∧
    loaded "-0,007" = some [0, 7] ∧ loaded "9223372036854775807,-9223372036854775808" =
      some [9223372036854775807, -9223372036854775808] := by decide

theorem test_loader_refuses : loadFault "1, 2" = some ⟨.malformedProgram, 2, 0⟩ ∧
    loadFault "" = some ⟨.malformedProgram, 1, 0⟩ ∧ loadFault "\n" = some ⟨.malformedProgram, 1, 0⟩ ∧
    loadFault "1,2," = some ⟨.malformedProgram, 3, 0⟩ ∧ loadFault "1,,2" = some ⟨.malformedProgram, 2, 0⟩ ∧
    loadFault "+1" = some ⟨.malformedProgram, 1, 0⟩ ∧ loadFault "1.5" = some ⟨.malformedProgram, 1, 0⟩ ∧
    loadFault "9223372036854775808" = some ⟨.malformedProgram, 1, 0⟩ := by decide

/-! ### The host, the generator and the orchestrator -/

/-- The reset machine with operations for the host. -/
def scripted (ops : List HostOp) : State := { State.reset with script := ops }

/-- HI6: a new instance with one input. -/
theorem test_new_with_input : ((after (scripted [.newWithInput ['3', ',', '0', ',', '4', ',', '0', ',', '9', '9'] 5])).bind
      fun t => (t.coreOf 1).map fun c => (c.mem.words, c.inq, c.status, t.reply)) =
    some ([3, 0, 4, 0, 99], [5], .running, .handle 1) := by decide

/-- A core with a program that has halted. -/
def haltedCore : Machine.Core := { Core.ofProgram [104, 7, 99] with status := .halted }

/-- HI1: `run` on a Halted machine. -/
theorem test_run_after_halt :
    ((after
      { scripted [.run 0] with
        core := { haltedCore with pc := 2, outq := [7], result := .completed 7 } }).map fun t => (t.core.status, t.core.fault, t.core.result, t.core.outq)) =
    some (.faulted, ⟨some .runAfterHalt, 0, 2, 0⟩, .completed 7, [7]) := by decide

/-- HI5: `pop_output` on an empty queue. -/
theorem test_pop_nothing : ((after (scripted [.popOutput 0])).map fun t => (t.core.outq, t.reply)) =
    some ([], .output none) := by decide

/-- PG3: the order for three values, then None. -/
theorem test_generator_order : (match genStart [0, 1, 2] with
      | .ok g => (emissions 7 g).1
      | .error _ => []) =
    [some [0, 1, 2], some [1, 0, 2], some [2, 0, 1], some [0, 2, 1], some [1, 2, 0], some [2, 1, 0], none] := by decide

/-- PG0 and PG6. -/
theorem test_generator_corners : (match genStart [] with
      | .ok g => (emissions 2 g).1
      | .error _ => []) = [some [], none] ∧
    ((after (scripted [.genStart [0, 1, 2, 3, 4, 5]])).map fun t => t.sysFault) =
      some ⟨some .capacityExceeded, 5, 0, 6⟩ := by decide

/-- OR6 and OR7. -/
theorem test_orchestrator_counts :
    ((after (scripted [.orchestrate ['9', '9'] []])).map fun t => t.sysFault) =
      some ⟨some .orchestratorProtocol, 2, 0, 0⟩ ∧
    ((after (scripted [.orchestrate ['9', '9'] [1, 2, 3, 4, 5, 6]])).map fun t => t.sysFault) =
      some ⟨some .orchestratorProtocol, 2, 0, 6⟩ := by decide

/-! ### Witnesses: for each statement with hypotheses, a case that meets all of them -/

theorem witness_StrayDigitsAreIgnoredWhenNotStrict :
    0 ≤ (10104 : Word).toInt ∧ ((10104 : Word).toNat % 100, 1) ∈ operandTable ∧
      decoded false [10104, 3] = some (.out (imm 3)) := by decide

theorem witness_DecodedWordsAreTheEncoding : decode true [1002, 4, 3, 4, 33] = .ok (.mul (pos 4) (imm 3) (pos 4)) := by
  rfl

theorem witness_Runs : (running [99]).Runs := ⟨by decide, by decide, by decide⟩

theorem witness_StepRunsTheDecodedInstruction :
    (running [1101, 2, 3, 0]).Runs ∧
      decode true (running [1101, 2, 3, 0]).core.fetchWords = .ok (.add (imm 2) (imm 3) (pos 0)) :=
  ⟨⟨by decide, by decide, by decide⟩, rfl⟩

/-- The instruction ends exactly at `len`. -/
theorem witness_StepRunsTheInstructionInMemory :
    (running [1101, 2, 3, 0]).Runs ∧ (running [1101, 2, 3, 0]).core.pc.toNat + 4 ≤ (running [1101, 2, 3, 0]).core.mem.len ∧
      ∀ j < 4, (running [1101, 2, 3, 0]).core.wordAhead j = (encode (.add (imm 2) (imm 3) (pos 0))).getD j 0 :=
  ⟨⟨by decide, by decide, by decide⟩, by decide, by decide⟩

/-- The machine of DC26 after its OUT: the program counter equals `len`. -/
def pastTheEnd : State :=
  { State.reset with
    core := { Core.ofProgram [104, 1] with busy := true, pc := 2 } }

/-- Both clauses, each at its boundary: `len = pc`, and `len = pc + n`. -/
theorem witness_FetchPastTheEndFaults :
    (pastTheEnd.Runs ∧ pastTheEnd.core.mem.len = pastTheEnd.core.pc.toNat) ∧
      (running [1101, 1, 1]).Runs ∧ (running [1101, 1, 1]).core.pc.toNat < (running [1101, 1, 1]).core.mem.len ∧
        0 ≤ ((running [1101, 1, 1]).core.wordAhead 0).toInt ∧
        (((running [1101, 1, 1]).core.wordAhead 0).toNat % 100, 3) ∈ operandTable ∧
        (running [1101, 1, 1]).core.mem.len = (running [1101, 1, 1]).core.pc.toNat + 3 :=
  ⟨⟨⟨by decide, by decide, by decide⟩, by decide⟩, ⟨by decide, by decide, by decide⟩, by decide, by decide, by decide,
    by decide⟩

/-- A negative word, and the opcodes 10 and 98 just outside the table. -/
theorem witness_UnknownOpcodesFault :
    ((running [-1]).Runs ∧ ((running [-1]).core.wordAhead 0).toInt < 0) ∧
      ((running [10]).Runs ∧ ∀ n, (((running [10]).core.wordAhead 0).toNat % 100, n) ∉ operandTable) ∧
        (running [98]).Runs ∧ ∀ n, (((running [98]).core.wordAhead 0).toNat % 100, n) ∉ operandTable :=
  ⟨⟨⟨by decide, by decide, by decide⟩, by decide⟩,
    ⟨⟨by decide, by decide, by decide⟩, fun n => by
      rw [show ((running [10]).core.wordAhead 0).toNat % 100 = 10 by decide]; simp [operandTable]⟩,
    ⟨by decide, by decide, by decide⟩, fun n => by
      rw [show ((running [98]).core.wordAhead 0).toNat % 100 = 98 by decide]; simp [operandTable]⟩

/-- The last parameter's digit 3 after two legal ones, and a stray digit after one legal digit. -/
theorem witness_BadModeDigitsFault :
    ((running [30001, 0, 0, 0]).Runs ∧ 0 ≤ ((running [30001, 0, 0, 0]).core.wordAhead 0).toInt ∧
        (((running [30001, 0, 0, 0]).core.wordAhead 0).toNat % 100, 3) ∈ operandTable ∧
        (running [30001, 0, 0, 0]).core.pc.toNat + 3 < (running [30001, 0, 0, 0]).core.mem.len ∧
        2 < ((running [30001, 0, 0, 0]).core.wordAhead 0).toNat / 10 ^ (3 + 1) % 10 ∧
        ∀ j', 1 ≤ j' → j' < 3 → ((running [30001, 0, 0, 0]).core.wordAhead 0).toNat / 10 ^ (j' + 1) % 10 ≤ 2) ∧
      (running [10104, 0]).Runs ∧ (((running [10104, 0]).core.wordAhead 0).toNat % 100, 1) ∈ operandTable ∧
        (∀ j, 1 ≤ j → j ≤ 1 → ((running [10104, 0]).core.wordAhead 0).toNat / 10 ^ (j + 1) % 10 ≤ 2) ∧
        (running [10104, 0]).cfg.strictModeDigits = true ∧
        ((running [10104, 0]).core.wordAhead 0).toNat / 10 ^ (1 + 2) ≠ 0 := by
  refine ⟨⟨⟨by decide, by decide, by decide⟩, by decide, by decide, by decide, by decide, fun j h1 h2 => ?_⟩,
    ⟨by decide, by decide, by decide⟩, by decide, fun j h1 h2 => ?_, by decide, by decide⟩
  · rw [show ((running [30001, 0, 0, 0]).core.wordAhead 0).toNat = 30001 by decide]
    interval_cases j <;> decide
  · rw [show ((running [10104, 0]).core.wordAhead 0).toNat = 10104 by decide]
    interval_cases j; decide

/-- Index 1 below the length 2, and index 2 at it. -/
theorem witness_ReadIsTheWordOrZero :
    1 < (Core.ofProgram [104, 1]).mem.len ∧ (Core.ofProgram [104, 1]).mem.len ≤ 2 ∧
      pastTheEnd.core.mem = (Core.ofProgram [104, 1]).mem ∧ pastTheEnd.core.pc.toNat = 2 := by decide

/-- `MEM_CAP = 8`: index 8 lies past it, index 7 within it. -/
theorem witness_WriteExtendsWithZerosAndSets :
    (Core.ofProgram [1]).mem.wf ∧ (∃ b ∈ eightWords.memCap, b ≤ 8) ∧ ∀ b ∈ eightWords.memCap, 7 < b :=
  ⟨Memory.wf_ofWords _, ⟨8, rfl, le_refl _⟩, fun b h => by cases h; decide⟩

theorem witness_ReadAfterWrite : (Core.ofProgram [1, 2]).mem.wf ∧ (0 : Nat) ≠ 1 := ⟨Memory.wf_ofWords _, by decide⟩

theorem witness_LoadedMemoryIsTheProgramText : load Config.default ['9', '9'] = .ok [99] ∧
    (splitCommas (trimBlanks ['9', '9']))[0]? = some ['9', '9'] := ⟨rfl, by decide⟩

/-- An operand in each mode, as a source and as a destination. -/
theorem witness_operands :
    (Source Config.default (running [7, 8] 1).core (imm 5) 5 ∧ Source Config.default (running [7, 8] 1).core (pos 0) 7 ∧
      Source Config.default (running [7, 8] 1).core (rel 0) 8 ∧ Source Config.default (running [7, 8] 1).core (pos 2) 0) ∧
      Destination eightWords (running [7, 8] 1).core (pos 7) 7 ∧ Destination eightWords (running [7, 8] 1).core (rel 6) 7 :=
  ⟨⟨readParam_ok_iff.1 (by decide), readParam_ok_iff.1 (by decide), readParam_ok_iff.1 (by decide),
    readParam_ok_iff.1 (by decide)⟩,
    ⟨7, rfl, by decide, by decide, fun b h => by cases h; decide⟩,
    ⟨7, (checked_ok_iff (d := 2)).1 (by decide), by decide, by decide, fun b h => by cases h; decide⟩⟩

/-- A destination of the tests below: index 0, in every machine. -/
theorem destination_zero (c : Machine.Core) : Destination Config.default c (pos 0) 0 :=
  ⟨0, rfl, by decide, by decide, fun b hb => by cases hb⟩

/-- A sum in range, and one that wraps at the top of `Word`. -/
theorem witness_AddWritesTheSum :
    (Source Config.default (running []).core (imm 2) 2 ∧ Source Config.default (running []).core (imm 3) 3 ∧
        Narrows Config.default ((2 : Word).toInt + (3 : Word).toInt) 5 ∧
        Destination Config.default (running []).core (pos 0) 0) ∧
      Narrows wrapping ((9223372036854775807 : Word).toInt + (1 : Word).toInt) (-9223372036854775808) :=
  ⟨⟨.inl ⟨rfl, rfl⟩, .inl ⟨rfl, rfl⟩, (checked_ok_iff (d := 1)).1 (by decide), destination_zero _⟩,
    (checked_ok_iff (d := 1)).1 (by decide)⟩

/-- A product in range, and one that wraps at the top of `Word`. -/
theorem witness_MulWritesTheProduct :
    (Source Config.default (running []).core (imm 2) 2 ∧ Source Config.default (running []).core (imm 3) 3 ∧
        Narrows Config.default ((2 : Word).toInt * (3 : Word).toInt) 6 ∧
        Destination Config.default (running []).core (pos 0) 0) ∧
      Narrows wrapping ((-9223372036854775808 : Word).toInt * (-1 : Word).toInt) (-9223372036854775808) :=
  ⟨⟨.inl ⟨rfl, rfl⟩, .inl ⟨rfl, rfl⟩, (checked_ok_iff (d := 1)).1 (by decide), destination_zero _⟩,
    (checked_ok_iff (d := 1)).1 (by decide)⟩

/-- Both sides of the boundary: -1 is less than 0, and 0 is not less than 0. -/
theorem witness_LtWritesTheRelation :
    Source Config.default (running []).core (imm (-1)) (-1) ∧ Source Config.default (running []).core (imm 0) 0 ∧
      (-1 : Word).toInt < (0 : Word).toInt ∧ (0 : Word).toInt ≤ (0 : Word).toInt ∧
        Destination Config.default (running []).core (pos 0) 0 :=
  ⟨.inl ⟨rfl, rfl⟩, .inl ⟨rfl, rfl⟩, by decide, by decide, destination_zero _⟩

theorem witness_EqWritesTheRelation :
    Source Config.default (running []).core (imm 3) 3 ∧ Source Config.default (running []).core (imm 4) 4 ∧
      (3 : Word) ≠ 4 ∧ (3 : Word) = 3 ∧ Destination Config.default (running []).core (pos 0) 0 :=
  ⟨.inl ⟨rfl, rfl⟩, .inl ⟨rfl, rfl⟩, by decide, by decide, destination_zero _⟩

/-- A condition on each side of 0, and the smallest target a taken jump may have. -/
theorem witness_jumps :
    Source Config.default (running []).core (imm (-1)) (-1) ∧ Source Config.default (running []).core (imm 0) 0 ∧
      (-1 : Word).toInt ≠ 0 ∧ (0 : Word).toInt = 0 ∧ 0 ≤ (0 : Word).toInt :=
  ⟨.inl ⟨rfl, rfl⟩, .inl ⟨rfl, rfl⟩, by decide, by decide, by decide⟩

theorem witness_InStoresTheFrontOfTheQueue : (running [3, 0] 0 [5, 6]).core.inq = 5 :: [6] ∧
    Destination Config.default (running [3, 0] 0 [5, 6]).core (pos 0) 0 := ⟨rfl, destination_zero _⟩

theorem witness_InSuspendsOnAnEmptyQueue : (running [3, 0]).core.inq = [] := rfl

/-- A bounded output queue with one place left. -/
theorem witness_OutAppendsItsSource : Source oneOutput (running [104, 1]).core (imm 1) 1 ∧
    oneOutput.outDepth ≠ some (running [104, 1]).core.outq.length := ⟨.inl ⟨rfl, rfl⟩, by decide⟩

theorem witness_ArbAddsToTheBase : Source Config.default (running [109, 1] 4).core (imm 1) 1 ∧
    Narrows Config.default ((running [109, 1] 4).core.rb.toInt + (1 : Word).toInt) 5 :=
  ⟨.inl ⟨rfl, rfl⟩, (checked_ok_iff (d := 3)).1 (by decide)⟩

theorem witness_HltCompletesWithTheLastOutput : (running [99] 0 [] [3, 4]).core.outq = [3] ++ [4] := rfl

/-- Every fault of a source: a negative index, and a base plus offset outside `Word`. -/
theorem witness_source_faults :
    SourceFaults Config.default (running [] 9223372036854775807).core (rel 1) ⟨.arithmeticOverflow, 2, 0⟩ ∧
      SourceFaults Config.default (running []).core (pos (-1)) ⟨.negativeReadAddress, 0, -1⟩ :=
  ⟨readParam_error_iff.1 (by decide), readParam_error_iff.1 (by decide)⟩

/-- Every fault of a destination: Immediate, base plus offset outside `Word`, a negative index, and the index at the
capacity. -/
theorem witness_destination_faults :
    DestinationFaults Config.default (running []).core (imm 0) ⟨.invalidWrite, 1, 0⟩ ∧
      DestinationFaults Config.default (running [] 9223372036854775807).core (rel 1) ⟨.arithmeticOverflow, 2, 0⟩ ∧
        DestinationFaults Config.default (running []).core (pos (-1)) ⟨.invalidWrite, 2, -1⟩ ∧
          DestinationFaults eightWords (running []).core (pos 8) ⟨.capacityExceeded, 1, 8⟩ :=
  ⟨.inl ⟨rfl, rfl⟩, .inr (.inl ⟨rfl, ⟨by decide, rfl⟩, rfl⟩),
    .inr (.inr ⟨-1, rfl, .inl ⟨by decide, rfl⟩⟩),
    .inr (.inr ⟨8, rfl, .inr ⟨by decide, 8, rfl, by decide, rfl⟩⟩)⟩

/-- The result clauses: sums and products just outside `Word`, and results inside it. -/
theorem witness_ArithmeticAndRelationFaultsInOrder :
    Source Config.default (running []).core (imm 9223372036854775807) 9223372036854775807 ∧
      Source Config.default (running []).core (imm 1) 1 ∧
        Overflows Config.default ((9223372036854775807 : Word).toInt + (1 : Word).toInt) ∧
          Overflows Config.default ((-9223372036854775808 : Word).toInt * (-1 : Word).toInt) ∧
            ¬ Overflows Config.default ((9223372036854775807 : Word).toInt * (1 : Word).toInt) :=
  ⟨.inl ⟨rfl, rfl⟩, .inl ⟨rfl, rfl⟩, ⟨by decide, rfl⟩, ⟨by decide, rfl⟩, fun h => h.1 (by decide)⟩

/-- A taken jump to -1, the largest negative target. -/
theorem witness_JumpFaultsInOrder :
    Source Config.default (running []).core (imm 1) 1 ∧ Source Config.default (running []).core (imm (-1)) (-1) ∧
      (-1 : Word).toInt < 0 ∧ (Instr.jnz (imm 1) (imm (-1)) = .jnz (imm 1) (imm (-1)) ↔ (1 : Word).toInt ≠ 0) :=
  ⟨.inl ⟨rfl, rfl⟩, .inl ⟨rfl, rfl⟩, by decide, by decide⟩

theorem witness_QueueAndBaseFaultsInOrder :
    (running [103, 5] 0 [4]).core.inq ≠ [] ∧
      DestinationFaults Config.default (running [103, 5] 0 [4]).core (imm 5) ⟨.invalidWrite, 1, 0⟩ ∧
        oneOutput.outDepth = some (running [104, 3] 0 [] [3]).core.outq.length ∧
          Overflows Config.default ((running [109, 1] 9223372036854775807).core.rb.toInt + (1 : Word).toInt) ∧
            (running [99]).core.outq = [] :=
  ⟨by decide, .inl ⟨rfl, rfl⟩, by decide, ⟨by decide, rfl⟩, by decide⟩

/-- A destination that names an index, and one that names none. -/
theorem witness_StoringInstructionsFrame :
    (Instr.add (imm 2) (imm 3) (pos 0)).dst? = some (pos 0) ∧ (running []).core.mem.wf ∧
      (∃ t, exec (.add (imm 2) (imm 3) (pos 0)) (running []) = .next t) ∧
        destIndex Config.default (running []).core (pos 0) = .ok 0 ∧
          ∀ n, destIndex Config.default (running []).core (imm 0) ≠ .ok n :=
  ⟨rfl, Memory.wf_empty, ⟨_, rfl⟩, by decide, fun n h => by cases h⟩

theorem witness_NonStoringInstructionsFrame :
    (Instr.out (imm 1)).dst? = none ∧ ∃ t, exec (.out (imm 1)) (running []) = .next t ∧ t.core.outq = [1] :=
  ⟨rfl, _, rfl, by decide⟩

/-- Two machines with the same core that differ elsewhere. -/
theorem witness_CycleDependsOnItsInstanceOnly :
    (running [99]).Runs ∧ State.Runs { running [99] with nextHandle := 7 } ∧ running [99] ≠ { running [99] with nextHandle := 7 } :=
  ⟨⟨by decide, by decide, by decide⟩, ⟨by decide, by decide, by decide⟩, by decide⟩

/-- Steps of each kind a cycle ends in: on in the run, Waiting, Halted, Faulted. -/
theorem witness_cycles :
    ([running [104, 1], running [3, 0], running [99] 0 [] [5], running [99]].map fun s =>
      (after s).map fun t => (t.core.busy, t.core.status)) =
      [some (true, .running), some (false, .waiting), some (false, .halted), some (false, .faulted)] := by decide

/-- For FaultsArePrecise and RunEndsInOneOfThreeWays. -/
theorem witness_RunEndsInOneOfThreeWays : (running [104, 1]).Runs ∧ ∃ t, step (running [104, 1]) = .next t :=
  ⟨⟨by decide, by decide, by decide⟩, _, rfl⟩

/-- A step that moves the relative base. -/
theorem witness_OnlyArbMovesTheBase : (running [109, 5]).Runs ∧
    ∃ t, step (running [109, 5]) = .next t ∧ t.core.rb ≠ (running [109, 5]).core.rb :=
  ⟨⟨by decide, by decide, by decide⟩, _, rfl, by decide⟩

/-- A step that stores at `len`, and one that stores nothing. -/
theorem witness_MemoryNeverShrinks : (running [1101, 2, 3, 4]).Runs ∧
    (∃ t, step (running [1101, 2, 3, 4]) = .next t ∧ t.core.mem.len = 5) ∧
      ∃ t, step (running [104, 1]) = .next t ∧ t.core.mem.len = 2 :=
  ⟨⟨by decide, by decide, by decide⟩, ⟨_, rfl, by decide⟩, _, rfl, by decide⟩

/-- The reset machine with another core and other parameters. -/
def settled (cfg : Config) (c : Machine.Core) : State := { State.reset with cfg := cfg, core := c }

theorem inv_settled {cfg : Config} {c : Machine.Core} (h1 : cfg.wf) (h2 : CoreOk cfg c) : Inv (settled cfg c) where
  cfgWf := h1
  coreOk := h2
  parkedOk := by simp [settled, State.reset]
  parkedSorted := by simp [settled, State.reset]
  focusOk := by simp [settled, State.reset]
  genOk := ⟨Nat.zero_le _, rfl, Nat.zero_le _, by simp [settled, State.reset, Generator.reset]⟩
  programFits := fun _ _ => Nat.zero_le _

theorem coreOk_running (ws : List Word) : CoreOk Config.default (running ws).core :=
  { coreOk_ofProgram (ws := ws) (fun _ h => by cases h) with busyRuns := fun _ => rfl }

/-- A machine at rest with an order for the host meets the invariant. -/
theorem inv_scripted (ops : List HostOp) : Inv (scripted ops) where
  cfgWf := (by decide : Config.default.wf)
  coreOk := coreOk_reset _
  parkedOk := by simp [scripted, State.reset]
  parkedSorted := by simp [scripted, State.reset]
  focusOk := by simp [scripted, State.reset]
  genOk := ⟨Nat.zero_le _, rfl, Nat.zero_le _, by simp [scripted, State.reset, Generator.reset]⟩
  programFits := fun _ h => by cases h

/-- For EveryStepKeepsTheInvariant, StatusMovesLegally, OnlyItsOwnCycleChangesAnInstance and QueuesAreFirstInFirstOut: a
step of the host, and a cycle. -/
theorem witness_StatusMovesLegally :
    (∃ s t c c', Inv s ∧ step s = .next t ∧ s.coreOf 0 = some c ∧ t.coreOf 0 = some c' ∧ c'.inq = [5] ∧
        ¬ (s.focus = some 0 ∧ s.Runs)) ∧
      ∃ s t c c', Inv s ∧ step s = .next t ∧ s.coreOf 0 = some c ∧ t.coreOf 0 = some c' ∧ c'.outq = [1] ∧
        s.focus = some 0 ∧ s.Runs :=
  ⟨⟨scripted [.pushInput 0 5], _, _, _, inv_scripted _, rfl, rfl, rfl, by decide, fun h => by
      have := h.2.2.1; cases this⟩,
    settled Config.default (running [104, 1]).core, _, _, _, inv_settled (by decide) (coreOk_running _), rfl, rfl, rfl,
      by decide, rfl, by decide, by decide, by decide⟩

theorem witness_ProgramCounterNeverWraps : (running [99]).core.mem.len ≤ 9223372036854775808 ∧
    decode true (running [99]).core.fetchWords = .ok .hlt := ⟨by decide, rfl⟩

/-- A latched fault of an instance, and one of the system. -/
theorem witness_LatchedFaultStopsTheMachine :
    ((raise ⟨.invalidOpcode, 0, 0⟩ State.reset).coreOf 0).map (fun c => c.status) = some .faulted ∧
      (raiseSystem ⟨.malformedProgram, 1, 0⟩ State.reset).sysFault.code ≠ none := by decide

theorem witness_NewInstancesStartAtReset : Inv (scripted []) ∧ load (scripted []).cfg ['9', '9'] = .ok [99] :=
  ⟨inv_scripted _, rfl⟩

theorem witness_HostTurn : (scripted [.clone 0]).HostTurn ∧ (scripted [.clone 0]).script = .clone 0 :: [] ∧
    (scripted []).HostTurn ∧ (scripted []).script = [] :=
  ⟨⟨by decide, by decide, by decide, by decide⟩, rfl, ⟨by decide, by decide, by decide, by decide⟩, rfl⟩

/-- For PushInputAppends, CloneCopiesAndDropEnds and PopOutputTakesTheFront: an instance the host may act on, with
empty queues. -/
theorem witness_CloneCopiesAndDropEnds : Inv (scripted []) ∧ (scripted []).coreOf 0 = some Core.reset ∧
    Core.reset.busy = false ∧ Core.reset.status ≠ .faulted ∧ Core.reset.outq = [] ∧
      (scripted []).cfg.inDepth ≠ some Core.reset.inq.length :=
  ⟨inv_scripted _, rfl, rfl, by decide, rfl, by decide⟩

/-- `IN_DEPTH = 1` and a queue of one value, so the next push finds it full. -/
theorem witness_PushInputAppends :
    Inv (settled oneInput { Core.reset with inq := [5] }) ∧
      (settled oneInput { Core.reset with inq := [5] }).coreOf 0 = some { Core.reset with inq := [5] } ∧
        (settled oneInput { Core.reset with inq := [5] }).cfg.inDepth = some ([5] : List Word).length :=
  ⟨inv_settled (by decide) { coreOk_reset oneInput with inFits := fun b h => by cases h; decide }, rfl, rfl⟩

/-- An output queue with a front. -/
theorem witness_PopOutputTakesTheFront :
    Inv (settled Config.default { Core.reset with outq := [3, 4] }) ∧
      (settled Config.default { Core.reset with outq := [3, 4] }).coreOf 0 = some { Core.reset with outq := [3, 4] } :=
  ⟨inv_settled (by decide) { coreOk_reset Config.default with outFits := fun b h => by cases h }, rfl⟩

/-- An instance that is Halted, and one that is Running, at the host's turn. -/
theorem witness_RunStartsTheCore :
    (Inv (settled Config.default { haltedCore with result := .completed 7 }) ∧
        (settled Config.default { haltedCore with result := .completed 7 }).HostTurn ∧
        ((settled Config.default { haltedCore with result := .completed 7 }).coreOf 0).map (fun c => c.status) =
          some .halted) ∧
      Inv (scripted []) ∧ (scripted []).HostTurn ∧ ((scripted []).coreOf 0).map (fun c => c.status) = some .running ∧
        HostOp.run 0 ∈ [HostOp.run 0, .runToHalt 0] :=
  ⟨⟨inv_settled (by decide)
      { coreOk_ofProgram (ws := [104, 7, 99]) (fun _ h => by cases h) with
        busyRuns := fun h => by cases h
        latched := by simp [haltedCore, Core.ofProgram, Core.reset, FaultRec.clear]
        waits := fun h => by cases h
        halts := fun _ => ⟨7, rfl⟩ },
      ⟨by decide, by decide, by decide, by decide⟩, rfl⟩,
    inv_scripted _, ⟨by decide, by decide, by decide, by decide⟩, rfl, by decide⟩

/-- A call whose run has ended, with each result it can have. -/
def returning (call : Call) (r : RunResult) : State :=
  { State.reset with
    core := { Core.reset with result := r }
    call := call }

theorem witness_CallsReturnTheResult :
    (¬ (returning .run .waiting).stopped ∧ (returning .run .waiting).core.busy = false) ∧
      (¬ (returning .runToHalt (.completed 7)).stopped ∧ (returning .runToHalt .waiting).core.result = .waiting) := by
  decide

/-- W7: the run stands at an IN with an empty queue. -/
def atInput : State :=
  { running [3, 9, 8, 9, 10, 9, 4, 9, 99, -1, 8] with
    call := .run
    script := [.pushInput 0 8, .run 0] }

theorem witness_SuspendedInputResumes : atInput.Runs ∧ atInput.focus = some 0 ∧ atInput.call = .run ∧
    atInput.orch.phase = .idle ∧ atInput.script = .pushInput 0 8 :: .run 0 :: [] ∧ atInput.core.inq = [] ∧
      atInput.cfg.inDepth ≠ some 0 ∧ decode atInput.cfg.strictModeDigits atInput.core.fetchWords = .ok (.inp (pos 9)) ∧
        Destination atInput.cfg atInput.core (pos 9) 9 :=
  ⟨⟨by decide, by decide, by decide⟩, rfl, rfl, rfl, rfl, rfl, by decide, rfl, 9, rfl, by decide, by decide,
    fun b h => by cases h⟩

/-- A text within the capacity and one past it, with whitespace on both sides. -/
theorem witness_LoaderReadsBackProgramText : ([1] : List Word) ≠ [] ∧ [' ', '\n'].all isBlank = true ∧
    programText [104, -9] = ['1', '0', '4', ',', '-', '9'] := by decide

/-- A bad token after a good one; two good tokens where one fits; and each operation that loads a text. -/
theorem witness_LoaderNamesTheFirstBadToken :
    (splitCommas (trimBlanks ['1', ',', ',', '2']) = [['1']] ++ [] :: [['2']] ∧
        (∃ v, tokenInt ['1'] = some v ∧ InWord v) ∧ ∀ v, tokenInt [] = some v → ¬ InWord v) ∧
      ({ Config.default with memCap := some 1 }.memCap = some 1 ∧ splitCommas (trimBlanks ['1', ',', '1']) = [['1'], ['1']] ∧
        (∀ token ∈ [['1'], ['1']], ∃ v, tokenInt token = some v ∧ InWord v) ∧ 1 < [['1'], ['1']].length) ∧
        HostOp.newWithInput ['1'] 5 ∈ [.new ['1'], .newWithInput ['1'] 5] ∧
          1 ≤ ([7] : List Word).length ∧ ([7] : List Word).length ≤ 5 :=
  ⟨⟨by decide, ⟨1, by decide, by decide⟩, fun v h => by cases h⟩,
    ⟨rfl, by decide, fun token h => ⟨1, by simp at h; subst h; decide, by decide⟩, by decide⟩, by decide, by decide,
      by decide⟩

theorem witness_GeneratorEmitsEveryPermutationOnce : ([0, 1, 2] : List Word).Nodup ∧
    (match genStart [0, 1, 2] with
      | .ok _ => true
      | .error _ => false) = true := by decide

/-- Five values and six, a generator that was never started, one that is Generating and one that is Done. -/
theorem witness_GeneratorStartAndRefusal : ([0, 1, 2, 3, 4] : List Word).length ≤ 5 ∧
    5 < ([0, 1, 2, 3, 4, 5] : List Word).length ∧ State.reset.gen.genState = .idle ∧
      (match genStart [7] with
        | .ok g => (g.genState, (emissions 2 g).2.genState)
        | .error _ => (.idle, .idle)) = (.generating, .done) := by decide

/-- No value, one, five and six, and a program that loads. -/
theorem witness_OrchestratorChecksItsValues : ([] : List Word).length = 0 ∧ 1 ≤ ([7] : List Word).length ∧
    ([0, 1, 2, 3, 4] : List Word).length ≤ 5 ∧ 5 < ([0, 1, 2, 3, 4, 5] : List Word).length ∧
      load Config.default ['9', '9'] = .ok [99] := ⟨rfl, by decide, by decide, by decide, rfl⟩

/-- A search of one value, before its arrangement and while its machine's run has ended with the result `r`. -/
def searching (phase : OrchPhase) (outq : List Word) (r : RunResult) : State :=
  { State.reset with
    core := { Core.reset with outq := outq, result := r }
    gen := ⟨[7], [0], 0, true, .generating⟩
    orch := { Orchestrator.reset with phase := phase, program := [99], values := [7], machines := [0] } }

theorem inv_searching (phase : OrchPhase) (outq : List Word) (r : RunResult) : Inv (searching phase outq r) where
  cfgWf := (by decide : Config.default.wf)
  coreOk :=
    { coreOk_reset Config.default with
      outFits := fun _ h => by cases h
      waits := fun h => by cases h
      halts := fun h => by cases h }
  parkedOk := by simp [searching, State.reset]
  parkedSorted := by simp [searching, State.reset]
  focusOk := by simp [searching, State.reset]
  genOk := ⟨(by decide : 1 ≤ 5), rfl, Nat.zero_le _, fun j => by rcases j with _ | j <;> simp [searching]⟩
  programFits := fun _ h => by cases h

theorem witness_OrchestratorBuildsAFreshPipeline : Inv (searching .next [] .none) ∧
    ¬ (searching .next [] .none).stopped ∧ (searching .next [] .none).orch.phase = .next ∧
      (genNext (searching .next [] .none).gen).2 = some [7] ∧ ([7] : List Word)[0]? = some 7 :=
  ⟨inv_searching _ _ _, by decide, rfl, by decide, rfl⟩

/-- A search of two values: machine 0 is `c`, in focus, and machine 1 is in its reset state. -/
def pipeline (cfg : Config) (phase : OrchPhase) (c : Machine.Core) : State :=
  { State.reset with
    cfg := cfg
    core := c
    parked := [(1, Core.reset)]
    nextHandle := 2
    orch := { Orchestrator.reset with phase := phase, machines := [0, 1], carried := 3 } }

theorem inv_pipeline {cfg : Config} (phase : OrchPhase) {c : Machine.Core} (h1 : cfg.wf) (h2 : CoreOk cfg c) :
    Inv (pipeline cfg phase c) where
  cfgWf := h1
  coreOk := h2
  parkedOk := fun x h => by simp [pipeline] at h; subst h; exact ⟨coreOk_reset _, rfl, (by decide : 1 < 2)⟩
  parkedSorted := by simp [pipeline]
  focusOk := fun j h => by cases h; exact ⟨(by decide : 0 < 2), rfl⟩
  genOk := ⟨Nat.zero_le _, rfl, Nat.zero_le _, by simp [pipeline, State.reset, Generator.reset]⟩
  programFits := fun _ _ => Nat.zero_le _

/-- A core that has halted with the result 7. -/
def doneCore : Machine.Core := { haltedCore with outq := [7], result := .completed 7 }

theorem coreOk_doneCore : CoreOk Config.default doneCore :=
  { coreOk_ofProgram (ws := [104, 7, 99]) (fun _ h => by cases h) with
    outFits := fun _ h => by cases h
    busyRuns := fun h => by cases h
    latched := by simp [doneCore, haltedCore, Core.ofProgram, Core.reset, FaultRec.clear]
    waits := fun h => by cases h
    halts := fun _ => ⟨7, rfl⟩ }

/-- A Waiting result with one output, and with none. -/
theorem witness_OrchestratorHandsOnTheSingleOutput :
    (¬ (searching .collect [5] .waiting).stopped ∧ (searching .collect [5] .waiting).focus = some 0 ∧
      (searching .collect [5] .waiting).orch.machines[(searching .collect [5] .waiting).orch.index]? = some 0 ∧
        (searching .collect [5] .waiting).core.outq = [5]) ∧
      (searching .collect [] .waiting).core.outq.length ≠ 1 := by decide

/-- The same statement's feed: an input queue with room, and a full one of `IN_DEPTH = 1`. -/
theorem witness_OrchestratorFeeds :
    (Inv (pipeline Config.default .feed Core.reset) ∧ ¬ (pipeline Config.default .feed Core.reset).stopped ∧
      (pipeline Config.default .feed Core.reset).orch.machines[0]? = some 0 ∧
      (pipeline Config.default .feed Core.reset).coreOf 0 = some Core.reset ∧
        Config.default.inDepth ≠ some Core.reset.inq.length) ∧
      Inv (pipeline oneInput .feed { Core.reset with inq := [5] }) ∧
        ¬ (pipeline oneInput .feed { Core.reset with inq := [5] }).stopped ∧ oneInput.inDepth = some ([5] : List Word).length :=
  ⟨⟨inv_pipeline _ (by decide) (coreOk_reset _), by decide, rfl, rfl, by decide⟩,
    inv_pipeline _ (by decide) { coreOk_reset oneInput with inFits := fun b h => by cases h; decide }, by decide, rfl⟩

/-- The same statement's call: a machine that may run, and one that has halted. -/
theorem witness_OrchestratorCalls :
    (Inv (pipeline Config.default .call Core.reset) ∧ ¬ (pipeline Config.default .call Core.reset).stopped ∧
      Core.reset.status ≠ .halted) ∧
      Inv (pipeline Config.default .call doneCore) ∧ ¬ (pipeline Config.default .call doneCore).stopped ∧
        (pipeline Config.default .call doneCore).coreOf 0 = some doneCore ∧ doneCore.status = .halted :=
  ⟨⟨inv_pipeline _ (by decide) (coreOk_reset _), by decide, by decide⟩,
    inv_pipeline _ (by decide) coreOk_doneCore, by decide, rfl, rfl⟩

/-- The last machine of one; and, of two machines, the one before the last, with the next one ready to be fed. -/
theorem witness_OrchestratorEndsAtTheLastMachine :
    (Inv (searching .collect [5] (.completed 5)) ∧ ¬ (searching .collect [5] (.completed 5)).stopped ∧
      (searching .collect [5] (.completed 5)).orch.machines[0]? = some 0 ∧
        (searching .collect [5] (.completed 5)).orch.index + 1 = (searching .collect [5] (.completed 5)).orch.machines.length) ∧
      Inv (pipeline Config.default .collect doneCore) ∧ ¬ (pipeline Config.default .collect doneCore).stopped ∧
        (pipeline Config.default .collect doneCore).focus = some 0 ∧ doneCore.result = .completed 7 ∧
        (pipeline Config.default .collect doneCore).orch.index + 1 <
          (pipeline Config.default .collect doneCore).orch.machines.length ∧
        (pipeline Config.default .collect doneCore).orch.machines[1]? = some 1 ∧
        (pipeline Config.default .collect doneCore).coreOf 1 = some Core.reset ∧
          Config.default.inDepth ≠ some Core.reset.inq.length :=
  ⟨⟨inv_searching _ _ _, by decide, rfl, rfl⟩, inv_pipeline _ (by decide) coreOk_doneCore, by decide, rfl, rfl, by decide,
    rfl, rfl, by decide⟩

/-- A search of one value whose one arrangement has finished. -/
def exhausted : State := { searching .next [] .none with gen := ⟨[7], [0], 0, false, .generating⟩ }

/-- A search whose generator has nothing left, one whose last machine has completed, and some final results. -/
theorem witness_OrchestratorAnswerIsTheMaximum :
    (¬ exhausted.stopped ∧ exhausted.core.busy = false ∧ exhausted.call = .none ∧ exhausted.orch.phase = .next ∧
      (genNext exhausted.gen).2 = none) ∧
      (searching .collect [5] (.completed 5)).orch.index + 1 = (searching .collect [5] (.completed 5)).orch.machines.length ∧
        ([3, 5, -1] : List Word) ≠ [] ∧ ([3, 5, -1] : List Word).foldl bestAfter none = some 5 := by decide

end Sys2Proof.Tests
end

/-! ## The statements about the state (10_state.md)

What a step does to one core is said once: it is a host move, or a cycle of that very core. What a cycle
does to the core, and where a decoded instruction ends, are said once beside it. -/

namespace Sys2Proof.Machine

/-! ### The decoded instruction lies in memory -/

theorem decodeNext_ok_iff {cfg : Config} {c : Core} {i : Instr} :
    c.decodeNext cfg = .ok i ↔ decode cfg.strictModeDigits c.fetchWords = .ok i := by
  unfold Core.decodeNext
  cases decode cfg.strictModeDigits c.fetchWords <;> simp

theorem fetchWords_length (c : Core) : c.fetchWords.length = min 4 (c.mem.len - c.pc.toNat) := by
  simp [Core.fetchWords]

section Widths
variable {op : Nat}

theorem width_of_f3 {mk : Param → Param → Param → Instr} (h : formOf op = some (.f3 mk)) (a b c : Param) :
    (mk a b c).width = 4 := by
  unfold formOf at h
  split at h <;> cases h <;> rfl

theorem width_of_f2 {mk : Param → Param → Instr} (h : formOf op = some (.f2 mk)) (a b : Param) :
    (mk a b).width = 3 := by
  unfold formOf at h
  split at h <;> cases h <;> rfl

theorem width_of_f1 {mk : Param → Instr} (h : formOf op = some (.f1 mk)) (a : Param) : (mk a).width = 2 := by
  unfold formOf at h
  split at h <;> cases h <;> rfl

theorem width_of_f0 {i : Instr} (h : formOf op = some (.f0 i)) : i.width = 1 := by
  unfold formOf at h
  split at h <;> cases h
  rfl

end Widths

/-- Words that decode hold the whole instruction (30_encoding.md rule R92). -/
theorem width_le_of_decode {strict : Bool} {ws : List Word} {i : Instr} (h : decode strict ws = .ok i) :
    i.width ≤ ws.length := by
  obtain ⟨w, ps, f, rfl, -, hf, hd⟩ := decode_ok h
  cases f with
  | f0 i₀ =>
    obtain ⟨rfl, -⟩ := decodeForm0_ok_iff.1 hd
    simp [width_of_f0 hf]
  | f1 mk =>
    obtain ⟨a, rest, rfl, rfl, -⟩ := decodeForm1_ok_iff.1 hd
    simp [width_of_f1 hf]
  | f2 mk =>
    obtain ⟨a, b, rest, rfl, rfl, -⟩ := decodeForm2_ok_iff.1 hd
    simp [width_of_f2 hf]
  | f3 mk =>
    obtain ⟨a, b, c, rest, rfl, rfl, -⟩ := decodeForm3_ok_iff.1 hd
    simp [width_of_f3 hf]

theorem width_pos (i : Instr) : 0 < i.width := by cases i <;> simp [Instr.width]

/-! ### One cycle, and one step, on one core -/

/-- The next state of a cycle: the decoded instruction's effect with its directive applied, or one latched fault. -/
theorem cycle_next_cases {s t : State} (h : cycle s = .next t) :
    (∃ i c d, s.core.decodeNext s.cfg = .ok i ∧ EffectSpec s.cfg s.core i c d ∧
        t = { s with core := c.apply i.width d }) ∨
      ∃ tr, t = raise tr s := by
  rcases cycle_cases s with ⟨i, c, d, hi, he, hn⟩ | ⟨tr, hn⟩ <;> rw [hn] at h <;> cases h
  · exact .inl ⟨i, c, d, hi, effect_ok he, rfl⟩
  · exact .inr ⟨tr, rfl⟩

/-- A cycle changes the core in focus only. -/
theorem cycle_next_eq {s t : State} (h : cycle s = .next t) : t = { s with core := t.core } := by
  rcases cycle_next_cases h with ⟨i, c, d, -, -, rfl⟩ | ⟨tr, rfl⟩ <;> rfl

theorem coreOf_setCore_of_not_focus {s : State} {k : Nat} (hf : s.focus ≠ some k) (c : Core) :
    State.coreOf k { s with core := c } = s.coreOf k := by
  simp [State.coreOf, hf]

/-- Over a step a core makes a host move, or it is the one in focus and the step is its cycle. -/
theorem hostMove_or_own_cycle {s t : State} {h : Nat} {c c' : Core} (hI : Inv s) (hstep : step s = .next t)
    (hc : s.coreOf h = some c) (hc' : t.coreOf h = some c') :
    HostMove c c' ∨ (s.focus = some h ∧ s.Runs ∧ cycle s = .next t ∧ c = s.core ∧ c' = t.core) := by
  obtain ⟨hn, ⟨he, hcyc⟩ | ⟨hb, hhost⟩⟩ := step_next_cases hstep
  · have ht := cycle_next_eq hcyc
    by_cases hf : s.focus = some h
    · have hf' : t.focus = some h := by rw [ht]; exact hf
      rw [coreOf_focus hf] at hc
      rw [coreOf_focus hf'] at hc'
      cases hc; cases hc'
      exact .inr ⟨hf, ⟨hn, he⟩, hcyc, rfl, rfl⟩
    · rw [ht, coreOf_setCore_of_not_focus hf, hc] at hc'
      cases hc'
      exact .inl .same
  · exact .inl ((kept_hostStep hI hn hb hhost).2 h c c' hc hc')

/-! ### What a host move leaves of a core -/

/-- The host, the generator and the orchestrator touch neither memory nor the program counter nor the base. -/
theorem HostMove.mem_pc_rb {c c' : Core} (h : HostMove c c') : c'.mem = c.mem ∧ c'.pc = c.pc ∧ c'.rb = c.rb := by
  cases h <;> exact ⟨rfl, rfl, rfl⟩

/-- `b` is the status `a` or follows it by a legal transition of rule R30. -/
def StatusMove (a b : Status) : Prop :=
  b = a ∨ (a, b) ∈
    [(Status.running, Status.waiting), (.running, .halted), (.running, .faulted), (.waiting, .running),
      (.waiting, .faulted), (.halted, .faulted)]

theorem statusMove_faulted (a : Status) : StatusMove a .faulted := by cases a <;> simp [StatusMove]

theorem HostMove.statusMove {c c' : Core} (h : HostMove c c') : StatusMove c.status c'.status := by
  cases h with
  | same => exact .inl rfl
  | push v => exact .inl rfl
  | pop v rest h => exact .inl rfl
  | start hh hf =>
    show StatusMove c.status .running
    cases hs : c.status with
    | running => exact .inl rfl
    | waiting => simp [StatusMove]
    | halted => exact absurd hs hh
    | faulted => exact absurd hs hf
  | latch t h => exact statusMove_faulted _

theorem apply_statusMove (w : Nat) {c : Core} (d : Directive) (h : c.status = .running) :
    StatusMove .running (c.apply w d).status := by
  cases d <;> simp [StatusMove, h]

theorem cycle_statusMove {s t : State} (hr : s.core.status = .running) (h : cycle s = .next t) :
    StatusMove s.core.status t.core.status := by
  rcases cycle_next_cases h with ⟨i, c, d, -, hs, rfl⟩ | ⟨tr, rfl⟩
  · rw [hr]
    exact apply_statusMove _ d (hs.status.trans hr)
  · exact statusMove_faulted _

/-! ### The statements -/

/-- Settles O41: a step is a cycle or a step of the host side, and each keeps the invariant. -/
theorem everyStepKeepsTheInvariant : Obligations.EveryStepKeepsTheInvariant := by
  intro s t hI hstep
  obtain ⟨hn, ⟨he, hcyc⟩ | ⟨hb, hhost⟩⟩ := step_next_cases hstep
  · exact inv_cycle hI he hcyc
  · exact (kept_hostStep hI hn hb hhost).1

/-- Settles O34: a host move and a cycle each make a status move of rule R30. -/
theorem statusMovesLegally : Obligations.StatusMovesLegally := by
  intro s t h c c' hI hstep hc hc'
  show StatusMove c.status c'.status
  rcases hostMove_or_own_cycle hI hstep hc hc' with hm | ⟨-, ⟨-, -, hr⟩, hcyc, rfl, rfl⟩
  · exact hm.statusMove
  · exact cycle_statusMove hr hcyc

/-- Settles O35: a step that is not the cycle of the core itself is a host move of it. -/
theorem onlyItsOwnCycleChangesAnInstance : Obligations.OnlyItsOwnCycleChangesAnInstance := by
  intro s t h c c' hI hstep hc hc'
  rcases hostMove_or_own_cycle hI hstep hc hc' with hm | ⟨hf, hr, -⟩
  · exact .inl hm.mem_pc_rb
  · exact .inr ⟨hf, hr⟩

/-- Settles O36: the one effect that changes the base is that of ARB, and a fault commits no change of it. -/
theorem onlyArbMovesTheBase : Obligations.OnlyArbMovesTheBase := by
  intro s t ⟨hn, he⟩ hstep hrb
  rw [step_enabled hn he] at hstep
  rcases cycle_next_cases hstep with ⟨i, c, d, hi, hs, rfl⟩ | ⟨tr, rfl⟩
  · rcases hs.rb with hkeep | ⟨a, rfl⟩
    · exact absurd ((apply_rb _ _ _).trans hkeep) hrb
    · exact ⟨a, decodeNext_ok_iff.1 hi⟩
  · exact absurd rfl hrb

/-- Settles O39: the decoded words are fetched below `len`, and a width of at most 4 cannot carry out of 64 bits from
there. -/
theorem programCounterNeverWraps : Obligations.ProgramCounterNeverWraps := by
  intro s i hlen hd
  have hw := width_le_of_decode hd
  have hpos := width_pos i
  rw [fetchWords_length] at hw
  have hend : s.core.pc.toNat + i.width ≤ s.core.mem.len := by omega
  refine ⟨hend, ?_⟩
  rw [BitVec.toNat_add, BitVec.toNat_ofNat]
  omega

end Sys2Proof.Machine

/-! ## The statements about memory (20_memory.md)

Memory is compared with the spec's sequence word by word: what a read, a write and a load do to `Memory.words` is said
once. What an instruction and a cycle do to the core is `EffectSpec`'s or a latched fault's. -/

namespace Sys2Proof.Machine

/-! ### Memory and the spec's sequence -/

namespace Memory

theorem words_getElem {m : Memory} {a : Nat} (h : a < m.words.length) : m.words[a] = m.read a := by
  rw [read_eq_words, List.getD_eq_getElem _ _ h]

theorem words_getElem? {m : Memory} {a : Nat} (h : a < m.len) : m.words[a]? = some (m.read a) := by
  have ha : a < m.words.length := by rwa [words_length]
  rw [List.getElem?_eq_getElem ha, words_getElem ha]

theorem read_of_len_le {m : Memory} {a : Nat} (h : m.len ≤ a) : m.read a = 0 := if_neg (by omega)

theorem read_store {m : Memory} (h : m.wf) (a b : Nat) (v : Word) :
    (m.store a v).read b = if b = a then v else m.read b := by
  rw [read_eq (wf_store h a v), getD_store, read_eq h]

/-- The write of rule R54 on the sequence: zeros up to the index, and then the word set. -/
theorem words_store {m : Memory} (h : m.wf) (a : Nat) (v : Word) :
    (m.store a v).words = (m.words ++ List.replicate (a + 1 - m.len) 0).set a v := by
  refine List.ext_getElem (by simp; omega) fun b hb _ => ?_
  rw [words_getElem hb, read_store h, List.getElem_set]
  by_cases hba : b = a
  · rw [if_pos hba, if_pos hba.symm]
  · rw [if_neg hba, if_neg (Ne.symm hba), List.getElem_append]
    split
    case isTrue hin => exact (words_getElem hin).symm
    case isFalse hout =>
      rw [List.getElem_replicate]
      exact read_of_len_le (by simpa using hout)

theorem words_ofWords (ws : List Word) : (ofWords ws).words = ws := by
  refine List.ext_getElem (by simp) fun a ha hw => ?_
  rw [words_getElem ha, read_eq (wf_ofWords ws), ofWords, getD_storeAll, if_pos ⟨Nat.zero_le a, by omega⟩,
    Nat.sub_zero, List.getD_eq_getElem _ _ hw]

end Memory

/-! ### The words of a loaded text -/

/-- The loader answers the integers of the tokens, one word each and in their order. -/
theorem loadTokens_ok {m : Nat} {tokens : List ProgramText} {ws : List Word} (h : loadTokens m tokens = .ok ws) :
    tokens.map tokenInt = ws.map fun w => some w.toInt := by
  induction tokens generalizing m ws with
  | nil => cases h; rfl
  | cons token rest ih =>
    unfold loadTokens at h
    rcases hv : tokenInt token with _ | v
    · rw [hv] at h; cases h
    rw [hv] at h
    simp only at h
    split at h
    case isFalse => cases h
    case isTrue hw =>
      rcases hr : loadTokens (m + 1) rest with t | ws'
      · rw [hr] at h; cases h
      · rw [hr] at h
        cases h
        rw [List.map_cons, List.map_cons, hv, ih hr, toInt_ofInt_of_inWord hw]

theorem load_ok {cfg : Config} {text : ProgramText} {ws : List Word} (h : load cfg text = .ok ws) :
    loadTokens 1 (splitCommas (trimBlanks text)) = .ok ws := by
  unfold load at h
  rcases hl : loadTokens 1 (splitCommas (trimBlanks text)) with t | ws'
  · rw [hl] at h; cases h
  · rw [hl] at h
    simp only [bind, Except.bind] at h
    split at h
    · exact h
    · cases h

/-! ### The fetch past the end -/

theorem fetchWords_of_len_le {c : Core} (h : c.mem.len ≤ c.pc.toNat) : c.fetchWords = [] := by
  rw [← List.length_eq_zero_iff, fetchWords_length]
  omega

theorem decodeNext_of_len_le {cfg : Config} {c : Core} (h : c.mem.len ≤ c.pc.toNat) :
    c.decodeNext cfg = .error ⟨.fetchOutOfRange, 0, c.pc⟩ := by
  rw [Core.decodeNext, fetchWords_of_len_le h]
  simp [decode, decodeTrap]

/-! ### What an instruction, and a cycle, does to the core -/

/-- The next state of an instruction: its effect with the directive applied, or one latched fault. -/
theorem exec_next_cases {i : Instr} {s t : State} (h : exec i s = .next t) :
    (∃ c d, EffectSpec s.cfg s.core i c d ∧ t = { s with core := c.apply i.width d }) ∨ ∃ tr, t = raise tr s := by
  rw [exec_eq_retire] at h
  rcases he : effect s.cfg s.core i with tr | ⟨c, d⟩ <;> rw [he] at h <;> cases h
  · exact .inr ⟨tr, rfl⟩
  · exact .inl ⟨c, d, effect_ok he, rfl⟩

/-- Memory changes at the destination's index only. -/
theorem EffectSpec.read_of_ne {cfg : Config} {c c' : Core} {i : Instr} {dir : Directive} {q : Param} {n k : Nat}
    (hs : EffectSpec cfg c i c' dir) (hwf : c.mem.wf) (hq : i.dst? = some q) (hn : destIndex cfg c q = .ok n)
    (hk : k ≠ n) : c'.mem.read k = c.mem.read k := by
  rcases hs.mem with hm | ⟨q', n', v, hq', hn', -, hm⟩
  · rw [hm]
  · cases hq.symm.trans hq'
    cases hn.symm.trans hn'
    rw [hm, Memory.read_store hwf, if_neg hk]

/-- Memory stays where the destination names no index. -/
theorem EffectSpec.mem_of_no_index {cfg : Config} {c c' : Core} {i : Instr} {dir : Directive} {q : Param}
    (hs : EffectSpec cfg c i c' dir) (hq : i.dst? = some q) (hn : ∀ n, destIndex cfg c q ≠ .ok n) :
    c'.mem = c.mem := by
  rcases hs.mem with hm | ⟨q', n, v, hq', hn', -, -⟩
  · exact hm
  · cases hq.symm.trans hq'
    exact absurd hn' (hn n)

/-- An instruction with a destination advances; only IN can suspend instead. -/
theorem EffectSpec.advance_or_inp {cfg : Config} {c c' : Core} {i : Instr} {dir : Directive} {q : Param}
    (hs : EffectSpec cfg c i c' dir) (hq : i.dst? = some q) : dir = .advance ∨ ∃ p, i = .inp p := by
  cases dir with
  | advance => exact .inl rfl
  | jump t => obtain ⟨-, -, ⟨a, b, rfl⟩ | ⟨a, b, rfl⟩⟩ := hs.jumps t rfl <;> cases hq
  | suspend =>
    obtain ⟨p, hp, -⟩ := hs.suspends rfl
    exact .inr ⟨p, hp⟩
  | halt v =>
    obtain ⟨rfl, -⟩ := hs.halts v rfl
    cases hq

theorem EffectSpec.rb_of_dst {cfg : Config} {c c' : Core} {i : Instr} {dir : Directive} {q : Param}
    (hs : EffectSpec cfg c i c' dir) (hq : i.dst? = some q) : c'.rb = c.rb := by
  rcases hs.rb with h | ⟨a, rfl⟩
  · exact h
  · cases hq

theorem EffectSpec.outq_of_dst {cfg : Config} {c c' : Core} {i : Instr} {dir : Directive} {q : Param}
    (hs : EffectSpec cfg c i c' dir) (hq : i.dst? = some q) : c'.outq = c.outq := by
  rcases hs.outq with h | ⟨a, v, rfl, -⟩
  · exact h
  · cases hq

theorem EffectSpec.inq_of_not_inp {cfg : Config} {c c' : Core} {i : Instr} {dir : Directive}
    (hs : EffectSpec cfg c i c' dir) (hi : ∀ p, i ≠ .inp p) : c'.inq = c.inq := by
  rcases hs.inq with h | ⟨p, v, rfl, -⟩
  · exact h
  · exact absurd rfl (hi p)

/-- The core after its own cycle: a function of the parameters and of that core. -/
def Core.afterCycle (cfg : Config) (c : Core) : Core :=
  match c.decodeNext cfg with
  | .error t => c.latch t
  | .ok i =>
    match effect cfg c i with
    | .error t => c.latch t
    | .ok (c', d) => c'.apply i.width d

theorem cycle_eq_afterCycle (s : State) : cycle s = .next { s with core := s.core.afterCycle s.cfg } := by
  unfold cycle Core.afterCycle
  rcases s.core.decodeNext s.cfg with t | i
  · rfl
  · simp only [exec_eq_retire]
    rcases effect s.cfg s.core i with t | ⟨c, d⟩ <;> rfl

theorem step_eq_afterCycle {s : State} (h : s.Runs) : step s = .next { s with core := s.core.afterCycle s.cfg } := by
  obtain ⟨hn, he⟩ := h
  rw [step_enabled hn he, cycle_eq_afterCycle]

/-! ### The statements -/

/-- Settles O11: a read is the sequence's element, and a fetch past its end has no word to decode. -/
theorem readIsTheWordOrZero : Obligations.ReadIsTheWordOrZero := by
  intro m a
  refine ⟨Memory.words_getElem?, Memory.read_of_len_le, ?_⟩
  rintro cfg c rfl rfl hlen
  exact decodeNext_of_len_le hlen

/-- Settles O12: the capacity admits the index exactly when it admits `a + 1` words. -/
theorem writeExtendsWithZerosAndSets : Obligations.WriteExtendsWithZerosAndSets := by
  intro cfg m a v hwf
  refine ⟨fun ⟨b, hb, hle⟩ => ?_, fun hcap => ?_⟩
  · have hfull : ¬ Config.fits cfg.memCap (a + 1) := fun hf => absurd (hf b hb) (by omega)
    exact if_neg hfull
  · have hroom : Config.fits cfg.memCap (a + 1) := hcap
    exact ⟨m.store a v, if_pos hroom, Memory.wf_store hwf a v, Memory.words_store hwf a v⟩

/-- Settles O13: `read_store` at the index written and at any other. -/
theorem readAfterWrite : Obligations.ReadAfterWrite := by
  intro m a v hwf
  refine ⟨?_, fun b hb => ?_⟩
  · rw [Memory.read_store hwf, if_pos rfl]
  · rw [Memory.read_store hwf, if_neg hb]

/-- Settles O14: the loader's words are the tokens' integers in order, and the new memory is the sequence of them. -/
theorem loadedMemoryIsTheProgramText : Obligations.LoadedMemoryIsTheProgramText := by
  intro cfg text ws hload
  have htok := loadTokens_ok (load_ok hload)
  have hwords : (Core.ofProgram ws).mem.words = ws := Memory.words_ofWords ws
  refine ⟨hwords, ?_, fun a token ha => ?_⟩
  · have hlen := congrArg List.length htok
    rw [List.length_map, List.length_map] at hlen
    rw [hlen]
    exact Memory.ofWords_len ws
  · have hat := congrArg (·[a]?) htok
    simp only [List.getElem?_map, ha, Option.map_some] at hat
    obtain ⟨w, hw, hv⟩ := Option.map_eq_some_iff.1 hat.symm
    exact ⟨w, hwords.symm ▸ hw, hv.symm⟩

/-- Settles O29: a fault changes the latch only, and an effect with a destination stores there and advances, but that IN
may take from the input queue or suspend. -/
theorem storingInstructionsFrame : Obligations.StoringInstructionsFrame := by
  intro s t i q hq hwf hexec
  rcases exec_next_cases hexec with ⟨c, dir, hs, rfl⟩ | ⟨tr, rfl⟩
  · refine ⟨rfl, ?_, ?_, fun n hn k hk => ?_, fun hn => ?_, fun _ => ?_, fun hi => ?_⟩
    · simpa using hs.rb_of_dst hq
    · simpa using hs.outq_of_dst hq
    · simpa using hs.read_of_ne hwf hq hn hk
    · simpa using hs.mem_of_no_index hq hn
    · simpa using hs.fault
    · rcases hs.advance_or_inp hq with rfl | ⟨p, hp⟩
      · exact ⟨hs.inq_of_not_inp hi, hs.result, fun _ => ⟨hs.status, hs.busy⟩⟩
      · exact absurd hp (hi p)
  · exact ⟨rfl, rfl, rfl, fun _ _ _ _ => rfl, fun _ => rfl, fun h => absurd rfl h,
      fun _ => ⟨rfl, rfl, fun h => absurd rfl h⟩⟩

/-- Settles O31: what the cycle leaves is `Core.afterCycle` of the parameters and the core in focus. -/
theorem cycleDependsOnItsInstanceOnly : Obligations.CycleDependsOnItsInstanceOnly := by
  intro s s' hs hs' hcfg hcore
  refine ⟨s.core.afterCycle s.cfg, step_eq_afterCycle hs, ?_⟩
  rw [hcfg, hcore]
  exact step_eq_afterCycle hs'

/-- Settles O37: an effect stores at its destination's index or nowhere, and a fault commits no store. -/
theorem memoryNeverShrinks : Obligations.MemoryNeverShrinks := by
  intro s t ⟨hn, he⟩ hstep
  rw [step_enabled hn he] at hstep
  rcases cycle_next_cases hstep with ⟨i, c, dir, hi, hs, rfl⟩ | ⟨tr, rfl⟩
  · rcases hs.mem with hm | ⟨q, n, v, hq, hdest, -, hm⟩
    · exact .inl (by simp [hm])
    · by_cases hlen : s.core.mem.len ≤ n
      · refine .inr ⟨i, q, n, decodeNext_ok_iff.1 hi, hq, hdest, hlen, ?_⟩
        simp [hm]; omega
      · refine .inl ?_
        simp [hm]; omega
  · exact .inl rfl

end Sys2Proof.Machine

/-! ## The statements about the encoding (30_encoding.md)

The opcode table gives a form, and the form gives the encoding; so a statement about every instruction is proved once
per format. What a fetch reads is said once: the words from the program counter on, and the form its first word names. -/

namespace Sys2Proof

/-! ### Digits of an instruction word -/

theorem digit_zero (n : Nat) : digit 0 n = n % 10 := by simp [digit]

theorem digit_one (n : Nat) : digit 1 n = n / 10 % 10 := rfl

theorem digit_two (n : Nat) : digit 2 n = n / 100 % 10 := rfl

theorem div_hundred_div_pow (j n : Nat) : n / 100 / 10 ^ j = n / 10 ^ (j + 2) := by
  rw [Nat.div_div_eq_div_mul, Nat.mul_comm, pow_add]
  norm_num

/-- The mode digit of parameter `j + 1` is a digit of the whole word (rule R82). -/
theorem digit_div_hundred (j n : Nat) : digit j (n / 100) = n / 10 ^ (j + 2) % 10 := by
  rw [digit, div_hundred_div_pow]

theorem formOf_lt_hundred {op : Nat} {f : Form} (h : formOf op = some f) : op < 100 := by
  have rows := formOf_some h
  omega

theorem formOf_eq_none {op : Nat} (h : ∀ n, (op, n) ∉ Machine.operandTable) : formOf op = none := by
  rcases hf : formOf op with _ | f
  · rfl
  · exact absurd (mem_operandTable_iff.2 ⟨f, hf, rfl⟩) (h _)

theorem Form.operands_le (f : Form) : f.operands ≤ 3 := by cases f <;> simp [Form.operands]

/-! ### The encoding of each format, decoded -/

section Formats
variable {op : Nat}

theorem encode_of_f3 {mk : Param → Param → Param → Instr} (h : formOf op = some (.f3 mk)) (a b c : Param) :
    encode (mk a b c) = encode3 op a b c := by
  unfold formOf at h
  split at h <;> cases h <;> rfl

theorem encode_of_f2 {mk : Param → Param → Instr} (h : formOf op = some (.f2 mk)) (a b : Param) :
    encode (mk a b) = encode2 op a b := by
  unfold formOf at h
  split at h <;> cases h <;> rfl

theorem encode_of_f1 {mk : Param → Instr} (h : formOf op = some (.f1 mk)) (a : Param) :
    encode (mk a) = encode1 op a := by
  unfold formOf at h
  split at h <;> cases h <;> rfl

theorem hlt_of_f0 {i : Instr} (h : formOf op = some (.f0 i)) : op = 99 ∧ i = .hlt := by
  unfold formOf at h
  split at h <;> cases h
  exact ⟨rfl, rfl⟩

variable (strict : Bool) (rest : List Word)

/-- A small instruction word decodes by the form its opcode names. -/
theorem decode_ofNat_cons {n : Nat} {f : Form} (h : n < 9223372036854775808) (hf : formOf (n % 100) = some f) :
    decode strict (BitVec.ofNat 64 n :: rest) = decodeForm strict (BitVec.ofNat 64 n) (rest.length + 1) f rest := by
  refine decode_cons ?_ ?_
  · rw [toInt_ofNat_small h]; omega
  · rwa [toNat_ofNat_small h]

/-- Rules R84 and R89: a negative word, or one whose opcode has no form. -/
theorem decode_of_invalidOpcode {w : Word} (h : w.toInt < 0 ∨ formOf (w.toNat % 100) = none) :
    decode strict (w :: rest) = .error (.invalidOpcode w) := by
  unfold decode
  by_cases hneg : w.toInt < 0
  · exact if_pos hneg
  · simp only [if_neg hneg, h.resolve_left hneg]

theorem decode_encode3 {mk : Param → Param → Param → Instr} (h : formOf op = some (.f3 mk)) (a b c : Param) :
    decode strict (encode3 op a b c ++ rest) = .ok (mk a b c) := by
  have hop := formOf_lt_hundred h
  have ha := a.mode.digit_le
  have hb := b.mode.digit_le
  have hc := c.mode.digit_le
  have hn : op + 100 * a.mode.digit + 1000 * b.mode.digit + 10000 * c.mode.digit < 9223372036854775808 := by omega
  have hf : formOf ((op + 100 * a.mode.digit + 1000 * b.mode.digit + 10000 * c.mode.digit) % 100) = some (.f3 mk) := by
    rw [← h]; congr 1; omega
  rw [encode3, List.cons_append, decode_ofNat_cons strict _ hn hf, decodeForm3_ok_iff, toNat_ofNat_small hn,
    digit_zero, digit_one, digit_two]
  exact ⟨a, b, c, rest, rfl, rfl, by omega, by omega, by omega, fun _ => by omega⟩

theorem decode_encode2 {mk : Param → Param → Instr} (h : formOf op = some (.f2 mk)) (a b : Param) :
    decode strict (encode2 op a b ++ rest) = .ok (mk a b) := by
  have hop := formOf_lt_hundred h
  have ha := a.mode.digit_le
  have hb := b.mode.digit_le
  have hn : op + 100 * a.mode.digit + 1000 * b.mode.digit < 9223372036854775808 := by omega
  have hf : formOf ((op + 100 * a.mode.digit + 1000 * b.mode.digit) % 100) = some (.f2 mk) := by
    rw [← h]; congr 1; omega
  rw [encode2, List.cons_append, decode_ofNat_cons strict _ hn hf, decodeForm2_ok_iff, toNat_ofNat_small hn,
    digit_zero, digit_one]
  exact ⟨a, b, rest, rfl, rfl, by omega, by omega, fun _ => by omega⟩

theorem decode_encode1 {mk : Param → Instr} (h : formOf op = some (.f1 mk)) (a : Param) :
    decode strict (encode1 op a ++ rest) = .ok (mk a) := by
  have hop := formOf_lt_hundred h
  have ha := a.mode.digit_le
  have hn : op + 100 * a.mode.digit < 9223372036854775808 := by omega
  have hf : formOf ((op + 100 * a.mode.digit) % 100) = some (.f1 mk) := by
    rw [← h]; congr 1; omega
  rw [encode1, List.cons_append, decode_ofNat_cons strict _ hn hf, decodeForm1_ok_iff, toNat_ofNat_small hn,
    digit_zero]
  exact ⟨a, rest, rfl, rfl, by omega, fun _ => by omega⟩

end Formats

/-- Settles O1: one lemma per format, whatever instruction of it the opcode names. -/
theorem decodeOfEncodeIsTheInstruction : Obligations.DecodeOfEncodeIsTheInstruction := by
  intro strict i rest
  cases i with
  | add a b d => exact decode_encode3 strict rest rfl a b d
  | mul a b d => exact decode_encode3 strict rest rfl a b d
  | lt a b d => exact decode_encode3 strict rest rfl a b d
  | eq a b d => exact decode_encode3 strict rest rfl a b d
  | jnz c t => exact decode_encode2 strict rest rfl c t
  | jz c t => exact decode_encode2 strict rest rfl c t
  | inp d => exact decode_encode1 strict rest rfl d
  | out a => exact decode_encode1 strict rest rfl a
  | arb a => exact decode_encode1 strict rest rfl a
  | hlt => exact (decode_ofNat_cons strict rest (n := 99) (by omega) rfl).trans (decodeForm0_ok_iff.2 ⟨rfl, fun _ => rfl⟩)

/-! ### Decoded words, encoded -/

theorem eq_ofNat_of_toNat {w : Word} {n : Nat} (h : w.toNat = n) : w = BitVec.ofNat 64 n := by
  rw [← h, BitVec.ofNat_toNat, BitVec.setWidth_eq]

section StrictWords
variable {w : Word} {n : Nat} {ps : List Word} {i : Instr}

/-- Rule R86: with strict digits the word of format F3 is its opcode with its three mode digits. -/
theorem strictWord_of_f3 {mk : Param → Param → Param → Instr} (h : decodeForm true w n (.f3 mk) ps = .ok i) :
    ∃ a b c rest, ps = a.word :: b.word :: c.word :: rest ∧ i = mk a b c ∧
      w.toNat = w.toNat % 100 + 100 * a.mode.digit + 1000 * b.mode.digit + 10000 * c.mode.digit := by
  obtain ⟨a, b, c, rest, hps, hi, ha, hb, hc, hs⟩ := decodeForm3_ok_iff.1 h
  rw [digit_zero] at ha
  rw [digit_one] at hb
  rw [digit_two] at hc
  have hstray := hs rfl
  exact ⟨a, b, c, rest, hps, hi, by omega⟩

/-- Rule R86: with strict digits the word of format F2 is its opcode with its two mode digits. -/
theorem strictWord_of_f2 {mk : Param → Param → Instr} (h : decodeForm true w n (.f2 mk) ps = .ok i) :
    ∃ a b rest, ps = a.word :: b.word :: rest ∧ i = mk a b ∧
      w.toNat = w.toNat % 100 + 100 * a.mode.digit + 1000 * b.mode.digit := by
  obtain ⟨a, b, rest, hps, hi, ha, hb, hs⟩ := decodeForm2_ok_iff.1 h
  rw [digit_zero] at ha
  rw [digit_one] at hb
  have hstray := hs rfl
  exact ⟨a, b, rest, hps, hi, by omega⟩

/-- Rule R86: with strict digits the word of format F1 is its opcode with its mode digit. -/
theorem strictWord_of_f1 {mk : Param → Instr} (h : decodeForm true w n (.f1 mk) ps = .ok i) :
    ∃ a rest, ps = a.word :: rest ∧ i = mk a ∧ w.toNat = w.toNat % 100 + 100 * a.mode.digit := by
  obtain ⟨a, rest, hps, hi, ha, hs⟩ := decodeForm1_ok_iff.1 h
  rw [digit_zero] at ha
  have hstray := hs rfl
  exact ⟨a, rest, hps, hi, by omega⟩

/-- Rule R86: with strict digits the word of format F0 is its opcode. -/
theorem strictWord_of_f0 {i₀ : Instr} (h : decodeForm true w n (.f0 i₀) ps = .ok i) :
    i = i₀ ∧ w.toNat = w.toNat % 100 := by
  obtain ⟨hi, hs⟩ := decodeForm0_ok_iff.1 h
  have hstray := hs rfl
  exact ⟨hi, by omega⟩

end StrictWords

/-- Settles O2: with strict digits the word is its opcode with its mode digits, which is what the encoder writes. -/
theorem decodedWordsAreTheEncoding : Obligations.DecodedWordsAreTheEncoding := by
  intro ws i h
  obtain ⟨w, ps, f, rfl, -, hf, hd⟩ := decode_ok h
  cases f with
  | f0 i₀ =>
    obtain ⟨rfl, hw⟩ := strictWord_of_f0 hd
    obtain ⟨hop, rfl⟩ := hlt_of_f0 hf
    exact ⟨ps, by rw [eq_ofNat_of_toNat (hw.trans hop)]; rfl⟩
  | f1 mk =>
    obtain ⟨a, rest, rfl, rfl, hw⟩ := strictWord_of_f1 hd
    exact ⟨rest, by rw [encode_of_f1 hf, encode1, ← eq_ofNat_of_toNat hw]; rfl⟩
  | f2 mk =>
    obtain ⟨a, b, rest, rfl, rfl, hw⟩ := strictWord_of_f2 hd
    exact ⟨rest, by rw [encode_of_f2 hf, encode2, ← eq_ofNat_of_toNat hw]; rfl⟩
  | f3 mk =>
    obtain ⟨a, b, c, rest, rfl, rfl, hw⟩ := strictWord_of_f3 hd
    exact ⟨rest, by rw [encode_of_f3 hf, encode3, ← eq_ofNat_of_toNat hw]; rfl⟩

/-! ### The legal instruction words -/

theorem exists_mode_iff {P : Int → Prop} : (∃ d, d ∈ ([0, 1, 2] : List Int) ∧ P d) ↔ ∃ m : Mode, P m.digit := by
  constructor
  · simp only [List.mem_cons, List.not_mem_nil, or_false]
    rintro ⟨d, rfl | rfl | rfl, h⟩
    exacts [⟨.position, h⟩, ⟨.immediate, h⟩, ⟨.relative, h⟩]
  · rintro ⟨m, h⟩
    exact ⟨m.digit, by cases m <;> decide, h⟩

section LegalWords
open Machine

/-- Rule R97: the legal words by the operand count of their opcode, with one mode for each operand. -/
theorem mem_legalWords_iff {v : Int} : v ∈ legalWords ↔
    (∃ op : Nat, (op, 3) ∈ operandTable ∧ ∃ a b c : Mode,
        ((op + 100 * a.digit + 1000 * b.digit + 10000 * c.digit : Nat) : Int) = v) ∨
      (∃ op : Nat, (op, 2) ∈ operandTable ∧ ∃ a b : Mode, ((op + 100 * a.digit + 1000 * b.digit : Nat) : Int) = v) ∨
      (∃ op : Nat, (op, 1) ∈ operandTable ∧ ∃ a : Mode, ((op + 100 * a.digit : Nat) : Int) = v) ∨
      ∃ op : Nat, (op, 0) ∈ operandTable ∧ (op : Int) = v := by
  have ops3 {P : Int → Prop} : (∃ op, op ∈ ([1, 2, 7, 8] : List Int) ∧ P op) ↔
      ∃ op : Nat, (op, 3) ∈ operandTable ∧ P op := by simp [operandTable]
  have ops2 {P : Int → Prop} : (∃ op, op ∈ ([5, 6] : List Int) ∧ P op) ↔
      ∃ op : Nat, (op, 2) ∈ operandTable ∧ P op := by simp [operandTable]
  have ops1 {P : Int → Prop} : (∃ op, op ∈ ([3, 4, 9] : List Int) ∧ P op) ↔
      ∃ op : Nat, (op, 1) ∈ operandTable ∧ P op := by simp [operandTable]
  have ops0 : v ∈ ([99] : List Int) ↔ ∃ op : Nat, (op, 0) ∈ operandTable ∧ (op : Int) = v := by
    simp [operandTable, eq_comm]
  push_cast
  simp only [legalWords, List.mem_append, List.mem_flatMap, List.mem_map, ops3, ops2, ops1, ops0, exists_mode_iff,
    or_assoc]

/-- With strict digits a word that decodes is legal. -/
theorem toInt_mem_legalWords {w : Word} {ps : List Word} {i : Instr} (h : decode true (w :: ps) = .ok i) :
    w.toInt ∈ legalWords := by
  obtain ⟨w', ps', f, he, h0, hf, hd⟩ := decode_ok h
  cases he
  have hint := toInt_toNat_of_nonneg h0
  have hop := mem_operandTable_iff.2 ⟨f, hf, rfl⟩
  rw [mem_legalWords_iff]
  cases f with
  | f0 i₀ =>
    obtain ⟨-, hw⟩ := strictWord_of_f0 hd
    exact .inr (.inr (.inr ⟨_, hop, by omega⟩))
  | f1 mk =>
    obtain ⟨a, -, -, -, hw⟩ := strictWord_of_f1 hd
    exact .inr (.inr (.inl ⟨_, hop, a.mode, by omega⟩))
  | f2 mk =>
    obtain ⟨a, b, -, -, -, hw⟩ := strictWord_of_f2 hd
    exact .inr (.inl ⟨_, hop, a.mode, b.mode, by omega⟩)
  | f3 mk =>
    obtain ⟨a, b, c, -, -, -, hw⟩ := strictWord_of_f3 hd
    exact .inl ⟨_, hop, a.mode, b.mode, c.mode, by omega⟩

theorem eq_ofNat_of_toInt {w : Word} {n : Nat} (h : (n : Int) = w.toInt) : w = BitVec.ofNat 64 n := by
  have hw := toInt_toNat_of_nonneg (a := w) (by omega)
  exact eq_ofNat_of_toNat (by omega)

/-- A legal word decodes, whatever its parameter words are. -/
theorem decode_of_mem_legalWords {w : Word} (p₁ p₂ p₃ : Word) (h : w.toInt ∈ legalWords) :
    ∃ i, decode true [w, p₁, p₂, p₃] = .ok i := by
  rcases mem_legalWords_iff.1 h with ⟨op, hop, a, b, c, hv⟩ | ⟨op, hop, a, b, hv⟩ | ⟨op, hop, a, hv⟩ | ⟨op, hop, hv⟩
  · obtain ⟨_ | _ | _ | mk, hf, hn⟩ := mem_operandTable_iff.1 hop <;> cases hn
    rw [eq_ofNat_of_toInt hv]
    exact ⟨_, decode_encode3 true [] hf ⟨a, p₁⟩ ⟨b, p₂⟩ ⟨c, p₃⟩⟩
  · obtain ⟨_ | _ | mk | _, hf, hn⟩ := mem_operandTable_iff.1 hop <;> cases hn
    rw [eq_ofNat_of_toInt hv]
    exact ⟨_, decode_encode2 true [p₃] hf ⟨a, p₁⟩ ⟨b, p₂⟩⟩
  · obtain ⟨_ | mk | _ | _, hf, hn⟩ := mem_operandTable_iff.1 hop <;> cases hn
    rw [eq_ofNat_of_toInt hv]
    exact ⟨_, decode_encode1 true [p₂, p₃] hf ⟨a, p₁⟩⟩
  · obtain ⟨i | _ | _ | _, hf, hn⟩ := mem_operandTable_iff.1 hop <;> cases hn
    obtain ⟨rfl, rfl⟩ := hlt_of_f0 hf
    rw [eq_ofNat_of_toInt hv]
    exact ⟨_, decodeOfEncodeIsTheInstruction true .hlt [p₁, p₂, p₃]⟩

theorem legalWords_nodup : legalWords.Nodup := by decide +kernel

/-- Settles O3: a word decodes exactly when it is its opcode with one mode digit for each operand. -/
theorem legalInstructionWordsAre136 : Obligations.LegalInstructionWordsAre136 :=
  ⟨legalWords_nodup, rfl,
    fun _ p₁ p₂ p₃ => ⟨fun ⟨_, h⟩ => toInt_mem_legalWords h, decode_of_mem_legalWords p₁ p₂ p₃⟩, rfl⟩

end LegalWords

/-- Settles O5: the decoder runs on each of the words. -/
theorem writtenOutWordsDecode : Obligations.WrittenOutWordsDecode := ⟨rfl, rfl, rfl, rfl, rfl, rfl, rfl, rfl⟩

/-! ### Stray digits -/

theorem digit_mod_pow {j n : Nat} (h : j < n) (x : Nat) : digit j (x % 10 ^ (n + 2) / 100) = digit j (x / 100) := by
  obtain ⟨k, rfl⟩ : ∃ k, n = j + k + 1 := ⟨n - j - 1, by omega⟩
  have hp : 10 ^ (j + k + 1 + 2) = 10 ^ (j + 2) * (10 * 10 ^ k) := by ring
  rw [digit_div_hundred, digit_div_hundred, hp, Nat.mod_mul_right_div_self, Nat.mod_mul_right_mod]

/-- Without strict digits only the parameters' own mode digits count. -/
theorem decodeForm_lenient_iff {w v : Word} {k : Nat} {f : Form} {ps : List Word} {i : Instr}
    (hd : ∀ j < f.operands, digit j (v.toNat / 100) = digit j (w.toNat / 100))
    (hs : v.toNat / 100 / 10 ^ f.operands = 0) :
    decodeForm false w k f ps = .ok i ↔ decodeForm true v k f ps = .ok i := by
  cases f with
  | f0 i₀ =>
    rw [Form.operands] at hs
    simp only [decodeForm0_ok_iff, hs, Bool.false_eq_true, false_implies, implies_true]
  | f1 mk =>
    rw [Form.operands] at hd hs
    simp only [decodeForm1_ok_iff, hd 0 (by omega), hs, Bool.false_eq_true, false_implies, implies_true]
  | f2 mk =>
    rw [Form.operands] at hd hs
    simp only [decodeForm2_ok_iff, hd 0 (by omega), hd 1 (by omega), hs, Bool.false_eq_true, false_implies, implies_true]
  | f3 mk =>
    rw [Form.operands] at hd hs
    simp only [decodeForm3_ok_iff, hd 0 (by omega), hd 1 (by omega), hd 2 (by omega), hs, Bool.false_eq_true,
      false_implies, implies_true]

/-- Settles O4: the word without its stray digits names the same form and has the same mode digits. -/
theorem strayDigitsAreIgnoredWhenNotStrict : Obligations.StrayDigitsAreIgnoredWhenNotStrict := by
  intro w ps n i h0 hop
  obtain ⟨f, hf, rfl⟩ := mem_operandTable_iff.1 hop
  have hle := f.operands_le
  have hlt : w.toNat % 10 ^ (f.operands + 2) < 10 ^ (f.operands + 2) := Nat.mod_lt _ (by positivity)
  have hpow : 10 ^ (f.operands + 2) ≤ 10 ^ 5 := Nat.pow_le_pow_right (by omega) (by omega)
  have hsmall : w.toNat % 10 ^ (f.operands + 2) < 9223372036854775808 := by omega
  have hop' : w.toNat % 10 ^ (f.operands + 2) % 100 = w.toNat % 100 := by
    rw [pow_add, Nat.mul_comm]; exact Nat.mod_mul_right_mod _ 100 _
  rw [decode_cons h0 hf, decode_ofNat_cons true ps hsmall (hop' ▸ hf)]
  refine decodeForm_lenient_iff (fun j hj => ?_) ?_ <;> rw [toNat_ofNat_small hsmall]
  · exact digit_mod_pow hj _
  · rw [div_hundred_div_pow]
    exact Nat.div_eq_of_lt hlt

/-! ### Where a form does not decode -/

/-- Rule R92: a parameter word is missing. -/
theorem decodeForm_of_short {strict : Bool} {w : Word} {k : Nat} {f : Form} {ps : List Word}
    (h : ps.length < f.operands) : decodeForm strict w k f ps = .error (.fetchOutOfRange k) := by
  cases f with
  | f0 i => exact absurd h (Nat.not_lt_zero _)
  | f1 mk =>
    match ps, h with
    | [], _ => rfl
  | f2 mk =>
    match ps, h with
    | [], _ => rfl
    | [_], _ => rfl
  | f3 mk =>
    match ps, h with
    | [], _ => rfl
    | [_], _ => rfl
    | [_, _], _ => rfl

/-- A parameter whose mode digit is at most 2 decodes. -/
theorem paramOf_of_le {w : Word} {j : Nat} (p : Word) (h : digit j (w.toNat / 100) ≤ 2) :
    ∃ q, paramOf w (j + 1) p = .ok q := by
  rcases hq : paramOf w (j + 1) p with e | q
  · exact absurd (paramOf_error_iff.1 hq).1 (not_lt.2 h)
  · exact ⟨q, rfl⟩

/-- Rule R90: the first mode digit above 2 is named. -/
theorem decodeForm_of_badDigit {strict : Bool} {w : Word} {k j : Nat} {f : Form} {ps : List Word}
    (hps : f.operands ≤ ps.length) (hj : j < f.operands) (hbad : 2 < digit j (w.toNat / 100))
    (hfirst : ∀ j' < j, digit j' (w.toNat / 100) ≤ 2) :
    decodeForm strict w k f ps = .error (.invalidMode (j + 1) w) := by
  have hb (p : Word) : paramOf w (j + 1) p = .error (.invalidMode (j + 1) w) := paramOf_error_iff.2 ⟨hbad, rfl⟩
  have hg (j' : Nat) (hlt : j' < j) (p : Word) := paramOf_of_le p (hfirst j' hlt)
  match f, ps, hps, j, hj with
  | .f1 mk, p₁ :: _, _, 0, _ => simp only [decodeForm, hb]; rfl
  | .f2 mk, p₁ :: p₂ :: _, _, 0, _ => simp only [decodeForm, hb]; rfl
  | .f2 mk, p₁ :: p₂ :: _, _, 1, _ =>
    obtain ⟨a, ha⟩ := hg 0 (by omega) p₁
    simp only [decodeForm, ha, hb]; rfl
  | .f3 mk, p₁ :: p₂ :: p₃ :: _, _, 0, _ => simp only [decodeForm, hb]; rfl
  | .f3 mk, p₁ :: p₂ :: p₃ :: _, _, 1, _ =>
    obtain ⟨a, ha⟩ := hg 0 (by omega) p₁
    simp only [decodeForm, ha, hb]; rfl
  | .f3 mk, p₁ :: p₂ :: p₃ :: _, _, 2, _ =>
    obtain ⟨a, ha⟩ := hg 0 (by omega) p₁
    obtain ⟨b, hb'⟩ := hg 1 (by omega) p₂
    simp only [decodeForm, ha, hb', hb]; rfl

/-- Rule R91: with no mode digit above 2, a digit above the parameters is refused. -/
theorem decodeForm_of_stray {w : Word} {k : Nat} {f : Form} {ps : List Word} (hps : f.operands ≤ ps.length)
    (hd : ∀ j < f.operands, digit j (w.toNat / 100) ≤ 2) (hs : w.toNat / 100 / 10 ^ f.operands ≠ 0) :
    decodeForm true w k f ps = .error (.invalidMode 0 w) := by
  have hstray (i : Instr) : checkStray true w f.operands i = .error (.invalidMode 0 w) := if_pos ⟨rfl, hs⟩
  have hg (j : Nat) (hlt : j < f.operands) (p : Word) := paramOf_of_le p (hd j hlt)
  match f, ps, hps with
  | .f0 i, _, _ => exact hstray i
  | .f1 mk, p₁ :: _, _ =>
    obtain ⟨a, ha⟩ := hg 0 (by simp [Form.operands]) p₁
    simp only [decodeForm, ha]
    exact hstray _
  | .f2 mk, p₁ :: p₂ :: _, _ =>
    obtain ⟨a, ha⟩ := hg 0 (by simp [Form.operands]) p₁
    obtain ⟨b, hb⟩ := hg 1 (by simp [Form.operands]) p₂
    simp only [decodeForm, ha, hb]
    exact hstray _
  | .f3 mk, p₁ :: p₂ :: p₃ :: _, _ =>
    obtain ⟨a, ha⟩ := hg 0 (by simp [Form.operands]) p₁
    obtain ⟨b, hb⟩ := hg 1 (by simp [Form.operands]) p₂
    obtain ⟨c, hc⟩ := hg 2 (by simp [Form.operands]) p₃
    simp only [decodeForm, ha, hb, hc]
    exact hstray _

end Sys2Proof

namespace Sys2Proof.Machine

/-! ### What a fetch reads -/

theorem fetchWords_getElem {c : Core} {j : Nat} (h : j < c.fetchWords.length) : c.fetchWords[j] = c.wordAhead j := by
  simp [Core.fetchWords, Core.wordAhead, Memory.read_eq_words]

theorem fetchWords_eq_cons {c : Core} (h : c.pc.toNat < c.mem.len) :
    ∃ ps, c.fetchWords = c.wordAhead 0 :: ps ∧ ps.length + 1 = min 4 (c.mem.len - c.pc.toNat) := by
  have hlen := fetchWords_length c
  have hfirst := fetchWords_getElem (c := c) (j := 0) (by omega)
  rcases hw : c.fetchWords with _ | ⟨w, ps⟩
  · rw [hw, List.length_nil] at hlen; omega
  · simp only [hw, List.getElem_cons_zero] at hfirst
    exact ⟨ps, by rw [hfirst], by rw [← hlen, hw, List.length_cons]⟩

open Laws.EncodedShape in
theorem encodedShape (i : Instr) : Statement i := by
  cases i
  exacts [add _ _ _, mul _ _ _, inp _, out _, jnz _ _, jz _ _, lt _ _ _, eq _ _ _, arb _, hlt]

/-- The words of an instruction that stand from `pc` on, below `len`, are fetched first. -/
theorem fetchWords_eq_encode_append {c : Core} {i : Instr} (hlen : c.pc.toNat + i.width ≤ c.mem.len)
    (hw : ∀ j < i.width, c.wordAhead j = (encode i).getD j 0) : ∃ rest, c.fetchWords = encode i ++ rest := by
  obtain ⟨hlength, -, hle⟩ := encodedShape i
  have hfetch := fetchWords_length c
  have htake : c.fetchWords.take i.width = encode i := by
    refine List.ext_getElem (by rw [List.length_take]; omega) fun j h1 h2 => ?_
    rw [List.getElem_take, fetchWords_getElem, hw j (by omega), List.getD_eq_getElem _ _ h2]
  exact ⟨c.fetchWords.drop i.width, by rw [← htake, List.take_append_drop]⟩

/-- Below `len` the fetched words decode by the form that the opcode at `pc` names. -/
theorem decode_fetchWords (strict : Bool) {c : Core} {n : Nat} (h : c.pc.toNat < c.mem.len)
    (h0 : 0 ≤ (c.wordAhead 0).toInt) (hop : ((c.wordAhead 0).toNat % 100, n) ∈ operandTable) :
    ∃ f ps, f.operands = n ∧ ps.length + 1 = min 4 (c.mem.len - c.pc.toNat) ∧
      decode strict c.fetchWords = decodeForm strict (c.wordAhead 0) (ps.length + 1) f ps := by
  obtain ⟨f, hf, hn⟩ := mem_operandTable_iff.1 hop
  obtain ⟨ps, hw, hps⟩ := fetchWords_eq_cons h
  exact ⟨f, ps, hn, hps, by rw [hw, decode_cons h0 hf]⟩

/-! ### The step on what was decoded -/

theorem step_of_decode_ok {s : State} {i : Instr} (hr : s.Runs)
    (hd : decode s.cfg.strictModeDigits s.core.fetchWords = .ok i) : step s = exec i s := by
  obtain ⟨hn, he⟩ := hr
  rw [step_enabled hn he, cycle, decodeNext_ok_iff.2 hd]

theorem step_of_decodeNext_error {s : State} {t : Trap} (hr : s.Runs) (hd : s.core.decodeNext s.cfg = .error t) :
    step s = .next (s.faulted t) := by
  obtain ⟨hn, he⟩ := hr
  rw [step_enabled hn he, cycle, hd]
  rfl

theorem step_of_decode_error {s : State} {e : DecodeError} (hr : s.Runs)
    (hd : decode s.cfg.strictModeDigits s.core.fetchWords = .error e) :
    step s = .next (s.faulted (decodeTrap s.core.pc e)) :=
  step_of_decodeNext_error hr (by rw [Core.decodeNext, hd])

theorem pc_add_ofNat {c : Core} (h : c.pc.toNat ≤ c.mem.len) :
    c.pc + BitVec.ofNat 64 (c.mem.len - c.pc.toNat) = BitVec.ofNat 64 c.mem.len := by
  apply BitVec.eq_of_toNat_eq
  simp only [BitVec.toNat_add, BitVec.toNat_ofNat]
  omega

/-! ### The statements -/

/-- Settles O7: the fetched words begin with the encoding, which decodes to the instruction. -/
theorem stepRunsTheInstructionInMemory : Obligations.StepRunsTheInstructionInMemory := by
  intro s i hr hlen hw
  obtain ⟨rest, hrest⟩ := fetchWords_eq_encode_append hlen hw
  exact step_of_decode_ok hr (hrest ▸ decodeOfEncodeIsTheInstruction _ i rest)

/-- Settles O8: with `pc` past the end nothing is fetched; with a parameter word missing its form is too short, and the
fetched words reach up to `len`. -/
theorem fetchPastTheEndFaults : Obligations.FetchPastTheEndFaults := by
  intro s hr
  refine ⟨fun hlen => ?_, fun n hpc h0 hop hlen => ?_⟩
  · exact step_of_decodeNext_error hr (decodeNext_of_len_le hlen)
  · obtain ⟨f, ps, rfl, hps, hd⟩ := decode_fetchWords s.cfg.strictModeDigits hpc h0 hop
    have hle := f.operands_le
    have hpresent : ps.length + 1 = s.core.mem.len - s.core.pc.toNat := by omega
    rw [decodeForm_of_short (by omega), hpresent] at hd
    rw [step_of_decode_error hr hd, decodeTrap, pc_add_ofNat hpc.le]

/-- Settles O9: neither a negative word nor an opcode outside the table has a form. -/
theorem unknownOpcodesFault : Obligations.UnknownOpcodesFault := by
  intro s hr hpc hbad
  obtain ⟨ps, hw, -⟩ := fetchWords_eq_cons hpc
  have hd := decode_of_invalidOpcode s.cfg.strictModeDigits ps (hbad.imp_right formOf_eq_none)
  exact step_of_decode_error hr (hw ▸ hd)

/-- Settles O10: parameter `j` has the digit `j - 1` above the opcode, and its words are all fetched. -/
theorem badModeDigitsFault : Obligations.BadModeDigitsFault := by
  intro s n hr h0 hop hlen
  obtain ⟨f, ps, rfl, hps, hd⟩ := decode_fetchWords s.cfg.strictModeDigits (by omega) h0 hop
  have hle := f.operands_le
  have hfull : f.operands ≤ ps.length := by omega
  refine ⟨fun j h1 hj hbad hfirst => ?_, fun hdigits hstrict hstray => ?_⟩
  · obtain ⟨j, rfl⟩ := Nat.exists_eq_add_of_le' h1
    rw [decodeForm_of_badDigit hfull hj (by rwa [digit_div_hundred])
      fun j' hlt => by rw [digit_div_hundred]; exact hfirst (j' + 1) (by omega) (by omega)] at hd
    exact step_of_decode_error hr hd
  · have hd' : ∀ j < f.operands, digit j ((s.core.wordAhead 0).toNat / 100) ≤ 2 := fun j hj => by
      rw [digit_div_hundred]; exact hdigits (j + 1) (by omega) (by omega)
    rw [hstrict, decodeForm_of_stray hfull hd' (by rwa [div_hundred_div_pow]), ← hstrict] at hd
    exact step_of_decode_error hr hd

end Sys2Proof.Machine

/-! ## The statements about the execution cycle (40_execution_cycle.md)

How a run ends is read off the directive of the effect (rules R113 to R115) or off the latch of a fault (rule R116). -/

namespace Sys2Proof.Machine

theorem takeInput_of_nil {cfg : Config} {d : Param} {c : Core} (h : c.inq = []) :
    takeInput cfg d c = .ok (c, .suspend) := by
  rw [takeInput, h]

/-- Settles O33: an advance and a jump go on with the run, a suspension, a halt and a fault end it, each in its own
way. -/
theorem runEndsInOneOfThreeWays : Obligations.RunEndsInOneOfThreeWays := by
  intro s t ⟨hn, hbusy, hrun⟩ hstep
  rw [step_enabled hn ⟨hbusy, hrun⟩] at hstep
  rcases cycle_next_cases hstep with ⟨i, c, d, -, hs, rfl⟩ | ⟨tr, rfl⟩
  · cases d with
    | advance => exact .inl ⟨hs.busy.trans hbusy, hs.status.trans hrun, hs.result, hs.fault⟩
    | jump target => exact .inl ⟨hs.busy.trans hbusy, hs.status.trans hrun, hs.result, hs.fault⟩
    | suspend => exact .inr ⟨rfl, .inl ⟨rfl, rfl, hs.pc, hs.fault⟩⟩
    | halt v =>
      obtain ⟨-, hlast, -⟩ := hs.halts v rfl
      exact .inr ⟨rfl, .inr (.inl ⟨rfl, ⟨v, hlast, rfl⟩, hs.pc, hs.fault⟩)⟩
  · exact .inr ⟨rfl, .inr (.inr ⟨rfl, rfl, rfl, Option.some_ne_none tr.code⟩)⟩

/-- Settles O6: the cycle decodes the fetched words and executes the instruction they give. -/
theorem stepRunsTheDecodedInstruction : Obligations.StepRunsTheDecodedInstruction :=
  fun _ _ hr hd => step_of_decode_ok hr hd

/-- Settles O22: IN looks at the queue before its destination, and an empty one suspends. -/
theorem inSuspendsOnAnEmptyQueue : Obligations.InSuspendsOnAnEmptyQueue := by
  intro s d hempty
  rw [exec_eq_retire, effect, takeInput_of_nil hempty, retire_ok, apply_suspend]

end Sys2Proof.Machine

/-! ## The statements about arithmetic (41_arithmetic.md)

ADD and MUL are `binary` of the exact result brought back into `Word`: with both sources read, the result narrowed and
the destination writable, no check of rule R241 fails. -/

namespace Sys2Proof.Machine

/-- The converse of `binary_ok`, in the terms of the claims. -/
theorem binary_of_operands {cfg : Config} {f : Word → Word → Except Trap Word} {a b d : Param} {c : Core}
    {x y r : Word} {n : Nat} (ha : Source cfg c a x) (hb : Source cfg c b y) (hf : f x y = .ok r)
    (hd : Destination cfg c d n) : binary cfg f a b d c = .ok ({ c with mem := c.mem.store n r }, .advance) := by
  rw [binary, readParam_ok_iff.2 ha, readParam_ok_iff.2 hb]
  simp only [bind, Except.bind, hf, writeParam_of_destination r hd]

/-- An instruction of four words whose effect is `binary` stores its result and advances by 4. -/
theorem exec_of_binary {s : State} {i : Instr} {f : Word → Word → Except Trap Word} {a b d : Param} {x y r : Word}
    {n : Nat} (hw : i.width = 4) (he : effect s.cfg s.core i = binary s.cfg f a b d s.core)
    (ha : Source s.cfg s.core a x) (hb : Source s.cfg s.core b y) (hf : f x y = .ok r)
    (hd : Destination s.cfg s.core d n) :
    exec i s = .next { s with core := { s.core with mem := s.core.mem.store n r, pc := s.core.pc + 4 } } := by
  rw [exec_eq_retire, hw, he, binary_of_operands ha hb hf hd, retire_ok]
  rfl

/-- Settles O15: the effect of ADD is `binary` of the sum, whose narrowing `checked` answers. -/
theorem addWritesTheSum : Obligations.AddWritesTheSum :=
  fun _ _ _ _ _ _ _ _ ha hb hr hd => exec_of_binary rfl rfl ha hb (checked_ok_iff.2 hr) hd

/-- Settles O16: the effect of MUL is `binary` of the product, whose narrowing `checked` answers. -/
theorem mulWritesTheProduct : Obligations.MulWritesTheProduct :=
  fun _ _ _ _ _ _ _ _ ha hb hr hd => exec_of_binary rfl rfl ha hb (checked_ok_iff.2 hr) hd

end Sys2Proof.Machine

/-! ## The statements about the relations (42_relation.md)

LT and EQ are `binary` of the word that `relationWord` gives the relation of the two values; no result is out of range. -/

namespace Sys2Proof.Machine

/-- Rule R142: a word that is 1 where `p` holds and 0 where it does not is the word the relation writes. -/
theorem relationWord_decide_eq {p : Prop} [Decidable p] {r : Word} (h1 : p → r = 1) (h0 : ¬ p → r = 0) :
    relationWord (decide p) = r := by
  by_cases hp : p
  · rw [decide_eq_true hp, h1 hp, relationWord, if_pos rfl]
  · rw [decide_eq_false hp, h0 hp, relationWord, if_neg Bool.false_ne_true]

/-- Settles O17: `lessThan` decides the order of the signed values, whose other side is `y.toInt ≤ x.toInt`. -/
theorem ltWritesTheRelation : Obligations.LtWritesTheRelation := by
  intro s a b d x y r n ha hb h1 h0 hd
  have hr : relationWord (lessThan x y) = r := relationWord_decide_eq h1 fun h => h0 (not_lt.1 h)
  exact exec_of_binary rfl rfl ha hb (congrArg Except.ok hr) hd

/-- Settles O18: `equals` compares the signed values, which are equal exactly for equal words. -/
theorem eqWritesTheRelation : Obligations.EqWritesTheRelation := by
  intro s a b d x y r n ha hb h1 h0 hd
  have hr : relationWord (equals x y) = r :=
    relationWord_decide_eq (fun h => h1 (BitVec.toInt_inj.1 h)) fun h => h0 (mt BitVec.toInt_inj.2 h)
  exact exec_of_binary rfl rfl ha hb (congrArg Except.ok hr) hd

end Sys2Proof.Machine

/-! ## The statements about the jumps (43_jump.md)

JNZ and JZ are `jumpWhen` of their test of the condition (rule R152): with both sources read, the test decides between
the target and the next instruction, and only where it holds is the target's sign looked at (decision D12). -/

namespace Sys2Proof.Machine

/-- What a jump answers once both of its sources are read, the converse of `jumpWhen_ok` in the terms of the claims. -/
theorem jumpWhen_of_sources (taken : Word → Bool) {cfg : Config} {c : Core} {a b : Param} {x y : Word}
    (ha : Source cfg c a x) (hb : Source cfg c b y) :
    jumpWhen taken cfg a b c =
      if taken x then if y.toInt < 0 then .error ⟨.invalidJumpTarget, 0, y⟩ else .ok (c, .jump y)
      else .ok (c, .advance) := by
  rw [jumpWhen, readParam_ok_iff.2 ha, readParam_ok_iff.2 hb]
  rfl

section Jump
variable {s : State} {i : Instr} {taken : Word → Bool} {a b : Param} {x y : Word}

/-- An instruction whose effect is a jump that is taken, to a target that is not negative, goes to the target. -/
theorem exec_of_jump_taken (he : effect s.cfg s.core i = jumpWhen taken s.cfg a b s.core)
    (ha : Source s.cfg s.core a x) (hb : Source s.cfg s.core b y) (htaken : taken x = true) (hy : 0 ≤ y.toInt) :
    exec i s = .next { s with core := { s.core with pc := y } } := by
  rw [exec_eq_retire, he, jumpWhen_of_sources taken ha hb, if_pos htaken, if_neg (not_lt.2 hy), retire_ok, apply_jump]

/-- An instruction of three words whose effect is a jump that is not taken advances by 3, whatever its target is. -/
theorem exec_of_jump_not_taken (hw : i.width = 3) (he : effect s.cfg s.core i = jumpWhen taken s.cfg a b s.core)
    (ha : Source s.cfg s.core a x) (hb : Source s.cfg s.core b y) (htaken : ¬ taken x = true) :
    exec i s = .next { s with core := { s.core with pc := s.core.pc + 3 } } := by
  rw [exec_eq_retire, hw, he, jumpWhen_of_sources taken ha hb, if_neg htaken, retire_ok, apply_advance]
  rfl

end Jump

theorem notZero_eq_true_iff {x : Word} : notZero x = true ↔ x.toInt ≠ 0 := decide_eq_true_iff

theorem isZero_eq_true_iff {x : Word} : isZero x = true ↔ x.toInt = 0 := decide_eq_true_iff

/-- Settles O19: JNZ is taken exactly when its condition is not zero. -/
theorem jnzJumpsWhenNotZero : Obligations.JnzJumpsWhenNotZero := fun _ _ _ _ _ hc ht =>
  ⟨fun hx hy => exec_of_jump_taken rfl hc ht (notZero_eq_true_iff.2 hx) hy,
    fun hx => exec_of_jump_not_taken rfl rfl hc ht fun h => notZero_eq_true_iff.1 h hx⟩

/-- Settles O20: JZ is taken exactly when its condition is zero. -/
theorem jzJumpsWhenZero : Obligations.JzJumpsWhenZero := fun _ _ _ _ _ hc ht =>
  ⟨fun hx hy => exec_of_jump_taken rfl hc ht (isZero_eq_true_iff.2 hx) hy,
    fun hx => exec_of_jump_not_taken rfl rfl hc ht fun h => hx (isZero_eq_true_iff.1 h)⟩

end Sys2Proof.Machine

/-! ## The statements about input and output (44_io.md)

Rule R162 (decision D17) gives each queue one writer and one reader. A core's cycle reads its input queue and writes its
output queue, as `EffectSpec` lists; a host move writes an input queue and reads an output queue. -/

namespace Sys2Proof.Machine

/-! ### What IN and OUT answer when no check fails -/

/-- The converse of `takeInput_ok` for a queue with a front, in the terms of the claims. -/
theorem takeInput_of_cons {cfg : Config} {d : Param} {c : Core} {v : Word} {rest : List Word} {n : Nat}
    (hq : c.inq = v :: rest) (hd : Destination cfg c d n) :
    takeInput cfg d c = .ok ({ c with mem := c.mem.store n v, inq := rest }, .advance) := by
  rw [takeInput, hq]
  simp only [bind, Except.bind, writeParam_of_destination v hd]

/-- The converse of `giveOutput_ok`, in the terms of the claims. -/
theorem giveOutput_of_source {cfg : Config} {a : Param} {c : Core} {v : Word} (ha : Source cfg c a v)
    (hroom : cfg.outDepth ≠ some c.outq.length) :
    giveOutput cfg a c = .ok ({ c with outq := c.outq ++ [v] }, .advance) := by
  rw [giveOutput, readParam_ok_iff.2 ha]
  simp only [bind, Except.bind, if_neg hroom]

/-! ### The two ends of a queue -/

/-- A cycle at most pops the front of the core's input queue and appends to its output queue; a fault does neither. -/
theorem cycle_queues {s t : State} (h : cycle s = .next t) :
    (t.core.inq = s.core.inq ∨ ∃ v, s.core.inq = v :: t.core.inq) ∧
      (t.core.outq = s.core.outq ∨ ∃ v, t.core.outq = s.core.outq ++ [v]) := by
  rcases cycle_next_cases h with ⟨i, c, d, -, hs, rfl⟩ | ⟨tr, rfl⟩
  · rw [apply_inq, apply_outq]
    exact ⟨hs.inq.imp_right fun ⟨_, v, _, hv⟩ => ⟨v, hv⟩, hs.outq.imp_right fun ⟨_, v, _, _, hv⟩ => ⟨v, hv⟩⟩
  · exact ⟨.inl rfl, .inl rfl⟩

/-- A host move at most appends to the core's input queue and pops the front of its output queue. -/
theorem HostMove.queues {c c' : Core} (h : HostMove c c') :
    (c'.inq = c.inq ∨ ∃ v, c'.inq = c.inq ++ [v]) ∧ (c'.outq = c.outq ∨ ∃ v, c.outq = v :: c'.outq) := by
  cases h with
  | same => exact ⟨.inl rfl, .inl rfl⟩
  | push v => exact ⟨.inr ⟨v, rfl⟩, .inl rfl⟩
  | pop v rest hfront => exact ⟨.inl rfl, .inr ⟨v, hfront⟩⟩
  | start _ _ => exact ⟨.inl rfl, .inl rfl⟩
  | latch _ _ => exact ⟨.inl rfl, .inl rfl⟩

/-- The step of a running machine is the cycle of the core in focus, which stays in focus. -/
theorem own_cycle_of_runs {s t : State} {h : Nat} {c c' : Core} (hf : s.focus = some h) (hr : s.Runs)
    (hstep : step s = .next t) (hc : s.coreOf h = some c) (hc' : t.coreOf h = some c') :
    cycle s = .next t ∧ c = s.core ∧ c' = t.core := by
  obtain ⟨hn, he⟩ := hr
  rw [step_enabled hn he] at hstep
  have hft : t.focus = some h := by rw [cycle_next_eq hstep]; exact hf
  rw [coreOf_focus hf] at hc
  rw [coreOf_focus hft] at hc'
  cases hc; cases hc'
  exact ⟨hstep, rfl, rfl⟩

/-! ### The statements -/

/-- Settles O38: the step of a running core is its own cycle, and every other step is a host move of the instance. -/
theorem queuesAreFirstInFirstOut : Obligations.QueuesAreFirstInFirstOut := by
  intro s t h c c' hI hstep hc hc'
  constructor
  · rintro ⟨hf, hr⟩
    obtain ⟨hcyc, rfl, rfl⟩ := own_cycle_of_runs hf hr hstep hc hc'
    exact cycle_queues hcyc
  · intro hother
    rcases hostMove_or_own_cycle hI hstep hc hc' with hm | ⟨hf, hr, -⟩
    · exact hm.queues
    · exact absurd ⟨hf, hr⟩ hother

/-- Settles O21: with a front to take and a destination that can be written, no check of IN fails. -/
theorem inStoresTheFrontOfTheQueue : Obligations.InStoresTheFrontOfTheQueue := by
  intro s d v rest n hq hd
  rw [exec_eq_retire, effect, takeInput_of_cons hq hd, retire_ok, apply_advance]
  rfl

/-- Settles O23: with its source read and room in the output queue, no check of OUT fails. -/
theorem outAppendsItsSource : Obligations.OutAppendsItsSource := by
  intro s a v ha hroom
  rw [exec_eq_retire, effect, giveOutput_of_source ha hroom, retire_ok, apply_advance]
  rfl

end Sys2Proof.Machine

/-! ## The statements about the base and the halt (45_base_halt.md)

ARB is `adjustBase`, whose new base `checked` brings back into `Word`; HLT is `haltWithLast`, which looks at the back of
the output queue and leaves the queue as it is (decisions D13 and D39). -/

namespace Sys2Proof.Machine

/-- The converse of `adjustBase_ok`, in the terms of the claims. -/
theorem adjustBase_of_source {cfg : Config} {a : Param} {c : Core} {v r : Word} (ha : Source cfg c a v)
    (hr : Narrows cfg (c.rb.toInt + v.toInt) r) : adjustBase cfg a c = .ok ({ c with rb := r }, .advance) := by
  rw [adjustBase, readParam_ok_iff.2 ha]
  simp only [bind, Except.bind, checked_ok_iff.2 hr]

/-- The converse of `haltWithLast_ok`, for a queue given by its back. -/
theorem haltWithLast_of_back {c : Core} {earlier : List Word} {v : Word} (h : c.outq = earlier ++ [v]) :
    haltWithLast c = .ok (c, .halt v) := by
  rw [haltWithLast, h, List.getLast?_concat]

/-- Settles O24: with its source read and the new base narrowed, no check of ARB fails. -/
theorem arbAddsToTheBase : Obligations.ArbAddsToTheBase := by
  intro s a v r ha hr
  rw [exec_eq_retire, effect, adjustBase_of_source ha hr, retire_ok, apply_advance]
  rfl

/-- Settles O25: a queue with a back passes the one check of HLT. -/
theorem hltCompletesWithTheLastOutput : Obligations.HltCompletesWithTheLastOutput := by
  intro s v earlier hback
  rw [exec_eq_retire, effect, haltWithLast_of_back hback, retire_ok, apply_halt]

end Sys2Proof.Machine

/-! ## The statements about the host's interface (46_host_interface.md)

An operation on one instance acts on the state with that instance in focus, where every handle names the core it named
before; so what an operation does is said once for the core in focus and once for the frame. A program text is loaded
token by token. -/

namespace Sys2Proof.Machine

/-! ### Which step is taken -/

theorem step_of_stopped {s : State} (h : s.stopped) : step s = .fault (.systemStopped s.latchedCode) := if_pos h

theorem stopped_of_coreOf {s : State} {h : Nat} {c : Core} (hc : s.coreOf h = some c) (hf : c.status = .faulted) :
    s.stopped := by
  by_cases hfo : s.focus = some h
  · rw [coreOf_focus hfo] at hc
    cases hc
    exact .inr (.inl hf)
  · rw [coreOf_parked hfo] at hc
    exact .inr (.inr ⟨(h, c), Assoc.mem_of_get? hc, hf⟩)

theorem step_of_hostTurn {s : State} (h : s.HostTurn) : step s = hostNext s := by
  obtain ⟨hn, hb, hcall, hphase⟩ := h
  rw [step_host hn hb, hostStep, hcall]
  simp only [orchStep, hphase]

theorem step_of_call {s : State} (hn : ¬ s.stopped) (hb : s.core.busy = false) (hcall : s.call ≠ .none) :
    step s = hostReturn s := by
  rw [step_host hn hb, hostStep]
  cases hc : s.call with
  | none => exact absurd hc hcall
  | run => rfl
  | runToHalt => rfl

/-- Settles O40: a fault latched in the system record or on an instance is one of the disjuncts of `State.stopped`. -/
theorem latchedFaultStopsTheMachine : Obligations.LatchedFaultStopsTheMachine := by
  rintro s (hsys | ⟨h, c, hc, hf⟩)
  · exact ⟨_, step_of_stopped (.inl hsys)⟩
  · exact ⟨_, step_of_stopped (stopped_of_coreOf hc hf)⟩

/-- Settles O45: the host's turn is a step of the script. -/
theorem stepPerformsTheHostsOperation : Obligations.StepPerformsTheHostsOperation := by
  intro s hturn
  rw [step_of_hostTurn hturn, hostNext]
  refine ⟨fun op rest hs => ?_, fun hs => ?_⟩
  · rw [hs]
  · rw [hs]

/-- Settles O49: the call in progress tells which return it is, and `run_to_halt` then looks at the result. -/
theorem callsReturnTheResult : Obligations.CallsReturnTheResult := by
  intro s hn hb
  refine ⟨fun hcall => ?_, fun hcall => ⟨fun v hv => ?_, fun hw => ?_⟩⟩
  · rw [step_of_call hn hb (by simp [hcall]), hostReturn, hcall]
  · rw [step_of_call hn hb (by simp [hcall]), hostReturn, hcall, hv]
  · rw [step_of_call hn hb (by simp [hcall]), hostReturn, hcall, hw]
    rfl

/-! ### Operations on one instance -/

/-- The converse of `onInstance_next`, for every operation at once. -/
theorem onInstance_runs {s : State} {h : Nat} {c : Core} (hc : s.coreOf h = some c) (hb : c.busy = false)
    (hf : c.status ≠ .faulted) :
    ∃ s', (∀ k, onInstance h s k = k s') ∧ s'.core = c ∧ s'.focus = some h ∧ (∀ j, s'.coreOf j = s.coreOf j) ∧
      s.focusOn h = some s' ∧ s' = { s with core := s'.core, focus := s'.focus, parked := s'.parked } := by
  obtain ⟨s', -, hrest⟩ := onInstance_of_coreOf .next hc hb hf
  refine ⟨s', fun k => ?_, hrest⟩
  obtain ⟨-, -, -, hon, -⟩ := hrest
  obtain ⟨s'', hk, -, -, -, hon', -⟩ := onInstance_of_coreOf k hc hb hf
  rw [hk, Option.some.inj (hon'.symm.trans hon)]

/-- The frame of an operation on the instance of handle `h`: after it was put in focus, its core alone is replaced. -/
theorem coreOf_of_replaced {s s' t : State} {h : Nat} (hsame : ∀ j, s'.coreOf j = s.coreOf j)
    (hfocus : s'.focus = some h) (hf : t.focus = s'.focus) (hp : t.parked = s'.parked) :
    ∀ j, j ≠ h → t.coreOf j = s.coreOf j := by
  intro j hj
  have hj' : s'.focus ≠ some j := by rw [hfocus]; exact fun e => hj (Option.some.inj e).symm
  rw [← hsame, coreOf_parked hj', coreOf_parked (hf ▸ hj'), hp]

theorem not_stopped_replaced {s t : State} (hn : ¬ s.stopped) (hc : t.core.status ≠ .faulted)
    (hsys : t.sysFault = s.sysFault) (hp : t.parked = s.parked) : ¬ t.stopped := by
  rintro (h | h | h)
  · exact hn (.inl (hsys ▸ h))
  · exact hc h
  · exact hn (.inr (.inr (hp ▸ h)))

theorem pushInput_of_full {cfg : Config} {c : Core} (v : Word) (h : cfg.inDepth = some c.inq.length) :
    c.pushInput cfg v = .error ⟨.capacityExceeded, 3, 0⟩ := if_pos h

theorem pushInput_of_room {cfg : Config} {c : Core} (v : Word) (h : cfg.inDepth ≠ some c.inq.length) :
    c.pushInput cfg v = .ok { c with inq := c.inq ++ [v] } := if_neg h

theorem startRun_of_halted {c : Core} (h : c.status = .halted) : c.startRun = .error ⟨.runAfterHalt, 0, 0⟩ := if_pos h

theorem startRun_of_not_halted {c : Core} (h : c.status ≠ .halted) :
    c.startRun = .ok { c with status := .running, busy := true } := if_neg h

theorem popOutput_of_nil {c : Core} (h : c.outq = []) : c.popOutput = c := by
  cases c
  cases h
  rfl

theorem popOutput_of_cons {c : Core} {v : Word} {rest : List Word} (h : c.outq = v :: rest) :
    c.popOutput = { c with outq := rest } := by
  rw [Core.popOutput, h, List.tail_cons]

theorem cloned_of_not_busy {c : Core} (h : c.busy = false) : c.cloned = c := by
  cases c
  cases h
  rfl

/-- Settles O46: the two clauses are the two answers of `Core.pushInput`. -/
theorem pushInputAppends : Obligations.PushInputAppends := by
  intro s h v c _ hc hb hf
  obtain ⟨s', hon, rfl, hfocus, hsame, -, hs'⟩ := onInstance_runs hc hb hf
  have hcfg : s'.cfg = s.cfg := by rw [hs']
  simp only [perform, hostPushInput, hon, hcfg]
  by_cases hfull : s.cfg.inDepth = some s'.core.inq.length
  · rw [pushInput_of_full v hfull]
    exact ⟨_, rfl, coreOf_of_replaced hsame hfocus rfl rfl, fun hroom => absurd hfull hroom,
      fun _ => coreOf_focus hfocus⟩
  · rw [pushInput_of_room v hfull]
    exact ⟨_, rfl, coreOf_of_replaced hsame hfocus rfl rfl, fun _ => ⟨coreOf_focus hfocus, rfl⟩,
      fun h => absurd h hfull⟩

/-- Settles O47: the front of the queue is the reply and its tail stays. -/
theorem popOutputTakesTheFront : Obligations.PopOutputTakesTheFront := by
  intro s h c _ hc hb hf
  obtain ⟨s', hon, rfl, hfocus, hsame, -⟩ := onInstance_runs hc hb hf
  refine ⟨_, hon _, coreOf_of_replaced hsame hfocus rfl rfl, fun hempty => ?_, fun v rest hq => ?_⟩
  · exact ⟨(coreOf_focus (by exact hfocus)).trans (congrArg some (popOutput_of_nil hempty)),
      congrArg Reply.output (congrArg List.head? hempty)⟩
  · exact ⟨(coreOf_focus (by exact hfocus)).trans (congrArg some (popOutput_of_cons hq)),
      congrArg Reply.output (congrArg List.head? hq)⟩

/-- `run` and `run_to_halt` differ in the call they leave in progress only. -/
theorem onInstance_startRun {s : State} {h : Nat} {c : Core} (call : Call) (hI : Inv s) (hturn : s.HostTurn)
    (hc : s.coreOf h = some c) :
    ∃ t, (onInstance h s fun s => commit s.core.startRun (fun s => { s with call := call }) s) = .next t ∧
      t.focus = some h ∧ (∀ j, j ≠ h → t.coreOf j = s.coreOf j) ∧
      (c.status = .halted → t.core = c.latch ⟨.runAfterHalt, 0, 0⟩) ∧
      (c.status ≠ .halted → t.core = { c with status := .running, busy := true } ∧ t.Runs ∧ t.call = call) := by
  obtain ⟨hn, hbusy, -⟩ := hturn
  obtain ⟨s', hon, rfl, hfocus, hsame, hfo, -⟩ :=
    onInstance_runs hc (not_busy_of_coreOf hI hbusy hc) (not_faulted_of_coreOf hI hn hc)
  simp only [hon]
  by_cases hhalt : s'.core.status = .halted
  · rw [startRun_of_halted hhalt]
    exact ⟨_, rfl, hfocus, coreOf_of_replaced hsame hfocus rfl rfl, fun _ => rfl, fun h => absurd hhalt h⟩
  · rw [startRun_of_not_halted hhalt]
    have hn' := not_stopped_focusOn hI hn hbusy hfo
    exact ⟨_, rfl, hfocus, coreOf_of_replaced hsame hfocus rfl rfl, fun h => absurd h hhalt,
      fun _ => ⟨rfl, ⟨not_stopped_replaced hn' nofun rfl rfl, rfl, rfl⟩, rfl⟩⟩

/-- Settles O48: each of the two calls is `onInstance_startRun` with its own call left in progress. -/
theorem runStartsTheCore : Obligations.RunStartsTheCore := by
  intro s h c op hI hturn hop hc _
  obtain ⟨call, hperform, hrun, hrunToHalt⟩ : ∃ call,
      (perform op s = onInstance h s fun s => commit s.core.startRun (fun s => { s with call := call }) s) ∧
      (op = .run h → call = .run) ∧ (op = .runToHalt h → call = .runToHalt) := by
    simp only [List.mem_cons, List.not_mem_nil, or_false] at hop
    rcases hop with rfl | rfl
    · exact ⟨.run, rfl, fun _ => rfl, nofun⟩
    · exact ⟨.runToHalt, rfl, nofun, fun _ => rfl⟩
  obtain ⟨t, ht, hfocus, hother, hhalt, hstart⟩ := onInstance_startRun call hI hturn hc
  refine ⟨t, hperform.trans ht, hfocus, hother, hhalt, fun hc' => ?_⟩
  obtain ⟨hcore, hruns, hcall⟩ := hstart hc'
  exact ⟨hcore, hruns, fun ho => hcall.trans (hrun ho), fun ho => hcall.trans (hrunToHalt ho)⟩

/-! ### Creating and ending instances -/

/-- Settles O44: both operations add an instance that holds the program; the two differ in its input queue only. -/
theorem newInstancesStartAtReset : Obligations.NewInstancesStartAtReset := by
  intro s text v ws hI hload p hp
  have hcreate : perform p.1 s =
      .next { s.addInstance { Core.ofProgram ws with inq := p.2 } with reply := .handle s.nextHandle } := by
    simp only [List.mem_cons, List.not_mem_nil, or_false] at hp
    rcases hp with rfl | rfl
    · rw [perform, hostNew, hload]; rfl
    · rw [perform, hostNewWithInput, hload]; rfl
  have hcoreOf := coreOf_addInstance hI.focusOk { Core.ofProgram ws with inq := p.2 }
  exact ⟨_, _, hcreate, rfl, coreOf_nextHandle hI, (hcoreOf _).trans (if_pos rfl), Memory.words_ofWords ws,
    Memory.ofWords_len ws, rfl, rfl, rfl, rfl, rfl, rfl, rfl, rfl, fun j hj => (hcoreOf j).trans (if_neg hj)⟩

/-- Settles O50: `clone` adds and `drop` removes one instance, in the state with the one operated on in focus. -/
theorem cloneCopiesAndDropEnds : Obligations.CloneCopiesAndDropEnds := by
  intro s h c hI hc hb hf
  obtain ⟨s', hon, rfl, -, hsame, hfo, hs'⟩ := onInstance_runs hc hb hf
  have hfocusOk := focusOk_focusOn hI hfo
  have hnext : s'.nextHandle = s.nextHandle := by rw [hs']
  constructor
  · have hcoreOf : ∀ j, (s'.addInstance s'.core.cloned).coreOf j =
        if j = s.nextHandle then some s'.core else s'.coreOf j := fun j => by
      rw [coreOf_addInstance hfocusOk, hnext, cloned_of_not_busy hb]
    exact ⟨_, hon _, congrArg Reply.handle hnext, coreOf_nextHandle hI, (hcoreOf _).trans (if_pos rfl),
      fun j hj => (hcoreOf j).trans ((if_neg hj).trans (hsame j))⟩
  · have hcoreOf := coreOf_removeInstance hfocusOk h
    exact ⟨_, hon _, (hcoreOf h).trans (if_pos rfl), fun j hj => (hcoreOf j).trans ((if_neg hj).trans (hsame j))⟩

/-! ### The loader -/

/-- No character of a program text is whitespace. -/
theorem programText_solid (ws : List Word) : ∀ c ∈ programText ws, isBlank c = false := by
  fun_induction programText ws with
  | case1 => simp
  | case2 w => exact fun c hc => (decimalText_props w c hc).1
  | case3 w v ws ih =>
    intro c hc
    rcases List.mem_append.1 hc with hc | hc
    · exact (decimalText_props w c hc).1
    · rcases List.mem_cons.1 hc with rfl | hc
      · decide
      · exact ih c hc

theorem programText_ne_nil {ws : List Word} (h : ws ≠ []) : programText ws ≠ [] := by
  fun_cases programText ws with
  | case1 => exact absurd rfl h
  | case2 w => exact decimalText_ne_nil w
  | case3 w v ws => simp

/-- The converse of `load_ok`: once every token is read, the length decides. -/
theorem load_of_loadTokens {cfg : Config} {text : ProgramText} {ws : List Word}
    (h : loadTokens 1 (splitCommas (trimBlanks text)) = .ok ws) :
    load cfg text = if Config.fits cfg.memCap ws.length then .ok ws
      else .error ⟨.capacityExceeded, 4, BitVec.ofNat 64 ws.length⟩ := by
  rw [load, h]
  rfl

theorem load_of_loadTokens_error {cfg : Config} {text : ProgramText} {t : Trap}
    (h : loadTokens 1 (splitCommas (trimBlanks text)) = .error t) : load cfg text = .error t := by
  rw [load, h]
  rfl

/-- Settles O52: the whitespace is trimmed, the commas split the text into the words' own tokens, and each is read
back. -/
theorem loaderReadsBackProgramText : Obligations.LoaderReadsBackProgramText := by
  intro cfg ws before after hne hbefore hafter
  have htrim := trimBlanks_of_solid hbefore hafter (programText_solid ws) (programText_ne_nil hne)
  have htokens : loadTokens 1 (splitCommas (trimBlanks (before ++ programText ws ++ after))) = .ok ws := by
    rw [htrim, splitCommas_programText ws hne, loadTokens_decimalText]
  exact load_of_loadTokens htokens

section Tokens
variable {m : Nat} {n : Int} {token : ProgramText} {rest good more : List ProgramText}

theorem loadTokens_cons_of_good (hn : tokenInt token = some n) (hw : InWord n) :
    loadTokens m (token :: rest) = (loadTokens (m + 1) rest).map (BitVec.ofInt 64 n :: ·) := by
  rw [loadTokens, hn]
  exact if_pos hw

theorem loadTokens_cons_of_bad (hbad : ∀ n, tokenInt token = some n → ¬ InWord n) :
    loadTokens m (token :: rest) = .error ⟨.malformedProgram, m, 0⟩ := by
  rw [loadTokens]
  cases hn : tokenInt token with
  | none => rfl
  | some n => exact if_neg (hbad n hn)

theorem loadTokens_of_good (hgood : ∀ token ∈ good, ∃ n, tokenInt token = some n ∧ InWord n) :
    ∃ ws, loadTokens m good = .ok ws ∧ ws.length = good.length := by
  induction good generalizing m with
  | nil => exact ⟨[], rfl, rfl⟩
  | cons token rest ih =>
    obtain ⟨⟨n, hn, hw⟩, hrest⟩ := List.forall_mem_cons.1 hgood
    obtain ⟨ws, hws, hlen⟩ := ih (m := m + 1) hrest
    refine ⟨BitVec.ofInt 64 n :: ws, ?_, congrArg (· + 1) hlen⟩
    rw [loadTokens_cons_of_good hn hw, hws]
    rfl

/-- Tokens are numbered on from `m`, and the first bad one is the one named. -/
theorem loadTokens_of_firstBad (hgood : ∀ token ∈ good, ∃ n, tokenInt token = some n ∧ InWord n)
    (hbad : ∀ n, tokenInt token = some n → ¬ InWord n) :
    loadTokens m (good ++ token :: more) = .error ⟨.malformedProgram, good.length + m, 0⟩ := by
  induction good generalizing m with
  | nil => rw [List.nil_append, loadTokens_cons_of_bad hbad, List.length_nil, Nat.zero_add]
  | cons first rest ih =>
    obtain ⟨⟨n, hn, hw⟩, hrest⟩ := List.forall_mem_cons.1 hgood
    rw [List.cons_append, loadTokens_cons_of_good hn hw, ih hrest, List.length_cons, Nat.add_right_comm]
    rfl

end Tokens

/-- Each of the three operations that load a text latches the loader's fault in the system record. -/
theorem perform_of_load_error {s : State} {text : ProgramText} {v : Word} {values : List Word} {op : HostOp} {t : Trap}
    (hop : op ∈ [.new text, .newWithInput text v] ∨
      (op = .orchestrate text values ∧ 1 ≤ values.length ∧ values.length ≤ 5))
    (hload : load s.cfg text = .error t) : perform op s = .next (s.systemFaulted t) := by
  simp only [List.mem_cons, List.not_mem_nil, or_false] at hop
  rcases hop with (rfl | rfl) | ⟨rfl, hpos, hmax⟩
  · rw [perform, hostNew, hload]; rfl
  · rw [perform, hostNewWithInput, hload]; rfl
  · have hlegal : ¬ (values.length = 0 ∨ permKMax < values.length) := by simp only [permKMax]; omega
    rw [perform, orchestrate, if_neg hlegal, hload]; rfl

/-- Settles O53: the loader's two faults, each latched by whichever operation loads. -/
theorem loaderNamesTheFirstBadToken : Obligations.LoaderNamesTheFirstBadToken := by
  intro s text v values op hop
  refine ⟨fun good bad more hsplit hgood hbad => ?_, fun cap tokens hcap hsplit hgood hlong => ?_⟩
  · have hload : load s.cfg text = .error ⟨.malformedProgram, good.length + 1, 0⟩ :=
      load_of_loadTokens_error (by rw [hsplit, loadTokens_of_firstBad hgood hbad])
    exact ⟨hload, perform_of_load_error hop hload⟩
  · obtain ⟨ws, hws, hlen⟩ := loadTokens_of_good (m := 1) hgood
    have hfull : ¬ Config.fits s.cfg.memCap ws.length := fun hfits => absurd (hfits cap hcap) (by omega)
    have hload : load s.cfg text = .error ⟨.capacityExceeded, 4, BitVec.ofNat 64 tokens.length⟩ := by
      rw [load_of_loadTokens (hsplit ▸ hws), if_neg hfull, hlen]
    exact ⟨hload, perform_of_load_error hop hload⟩

end Sys2Proof.Machine

/-! ## The statements about the permutation generator (47_permutation.md)

Every arrangement comes from the one before by an exchange, so each is an ordering of the values, whatever their number.
That all `k!` of them come, and none twice, is read off the generator's run on the indices `0 .. k-1` for the six `k`
that `start` admits; it carries over to any `k` values because the generator moves positions, not values. -/

namespace Sys2Proof.Machine

/-! ### `start` -/

/-- The generator as `start` leaves it (rule R201). -/
def Generator.started (values : List Word) : Generator :=
  ⟨values, List.replicate values.length 0, 0, true, .generating⟩

theorem genStart_of_le {values : List Word} (h : values.length ≤ permKMax) :
    genStart values = .ok (.started values) := if_pos h

theorem genStart_of_lt {values : List Word} (h : permKMax < values.length) :
    genStart values = .error ⟨.capacityExceeded, 5, BitVec.ofNat 64 values.length⟩ := if_neg (Nat.not_le.2 h)

theorem genStart_ok_iff {values : List Word} {g : Generator} :
    genStart values = .ok g ↔ values.length ≤ permKMax ∧ g = .started values := by
  by_cases h : values.length ≤ permKMax
  · simp [genStart_of_le h, h, eq_comm]
  · simp [genStart_of_lt (Nat.lt_of_not_le h), h]

/-- Settles O55: `start` and `next`, each by its one test. -/
theorem generatorStartAndRefusal : Obligations.GeneratorStartAndRefusal := by
  intro s values
  refine ⟨fun hmax => ?_, fun hlong => ?_, fun hidle => if_pos hidle, fun hidle => if_neg hidle⟩
  · rw [perform, hostGenStart, genStart_of_le hmax]
    rfl
  · rw [perform, hostGenStart, genStart_of_lt hlong]
    rfl

/-! ### Every arrangement is an ordering of the values -/

theorem swapAt_perm {l : List Word} {x y : Nat} (hx : x < l.length) (hy : y < l.length) : (swapAt l x y).Perm l := by
  rw [swapAt, List.getD_eq_getElem _ _ hx, List.getD_eq_getElem _ _ hy]
  exact List.set_set_perm hx hy

/-- `g'` holds the values of `g` in some order, and `p`, if it is an arrangement, is the one in `g'`. -/
def Reorders (g g' : Generator) (p : Option (List Word)) : Prop :=
  g'.arrangement.Perm g.arrangement ∧ ∀ a ∈ p, a = g'.arrangement

theorem genLoop_reorders (fuel : Nat) (g : Generator) : Reorders g (genLoop fuel g).1 (genLoop fuel g).2 := by
  induction fuel generalizing g with
  | zero => exact ⟨.refl _, by simp [genLoop]⟩
  | succ n ih =>
    rw [genLoop]
    by_cases hend : g.k ≤ g.depth
    · rw [if_pos hend]
      exact ⟨.refl _, by simp⟩
    · have hdepth : g.depth < g.k := Nat.lt_of_not_le hend
      rw [if_neg hend]
      by_cases hcount : g.counters.getD g.depth 0 < g.depth
      · rw [if_pos hcount]
        refine ⟨?_, by simp⟩
        show (ite _ _ _ : List Word).Perm _
        split
        · exact swapAt_perm (Nat.zero_lt_of_lt hdepth) hdepth
        · exact swapAt_perm (hcount.trans hdepth) hdepth
      · rw [if_neg hcount]
        exact ih _

theorem genNext_reorders (g : Generator) : Reorders g (genNext g).1 (genNext g).2 := by
  fun_cases genNext g with
  | case1 h => exact ⟨.refl _, by simp⟩
  | case2 h => exact ⟨.refl _, by simp⟩
  | case3 h hfirst => exact ⟨.refl _, by simp⟩
  | case4 h hfirst => exact genLoop_reorders _ g

theorem emissions_perm {n : Nat} {g : Generator} {p : List Word} (hp : some p ∈ (emissions n g).1) :
    p.Perm g.arrangement := by
  induction n generalizing g with
  | zero => simp [emissions] at hp
  | succ n ih =>
    obtain ⟨hperm, heq⟩ := genNext_reorders g
    rcases List.mem_cons.1 hp with hfirst | hrest
    · exact heq p hfirst.symm ▸ hperm
    · exact (ih hrest).trans hperm

/-! ### What some calls of `next` leave -/

theorem emissions_length (n : Nat) (g : Generator) : (emissions n g).1.length = n := by
  induction n generalizing g with
  | zero => rfl
  | succ n ih => exact congrArg (· + 1) (ih _)

theorem genOk_emissions (n : Nat) {g : Generator} (h : GenOk g) : GenOk (emissions n g).2 := by
  induction n generalizing g with
  | zero => exact h
  | succ n ih => exact ih (genOk_next h)

/-- The next call of `next` returns None and leaves the generator Done. -/
abbrev Generator.Exhausted (g : Generator) : Prop := (genNext g).2 = none ∧ (genNext g).1.genState = .done

theorem emissions_of_exhausted {g : Generator} (h : g.Exhausted) (n : Nat) :
    (emissions n g).1 = List.replicate n none := by
  obtain ⟨hnone, hdone⟩ := h
  cases n with
  | zero => rfl
  | succ n => rw [emissions, hnone, emissions_done n hdone, List.replicate_succ]

theorem Generator.Exhausted.rename {g : Generator} (f : Word → Word) (hg : GenOk g) (h : g.Exhausted) :
    (g.rename f).Exhausted := by
  obtain ⟨hnone, hdone⟩ := h
  rw [Exhausted, genNext_rename f hg, hnone]
  exact ⟨rfl, hdone⟩

/-! ### The run on the indices -/

/-- The words `0 .. k-1`. -/
def indices (k : Nat) : List Word := (List.range k).map (BitVec.ofNat 64)

@[simp] theorem indices_length (k : Nat) : (indices k).length = k := by simp [indices]

/-- The value an index of `values` stands for. -/
def valueAt (values : List Word) (i : Word) : Word := values.getD i.toNat 0

theorem indices_map_valueAt {values : List Word} (h : values.length ≤ permKMax) :
    (indices values.length).map (valueAt values) = values := by
  refine List.ext_getElem (by simp) fun i _ hi => ?_
  have hword : (BitVec.ofNat 64 i).toNat = i := Nat.mod_eq_of_lt (by simp only [permKMax] at h; omega)
  simp only [indices, List.getElem_map, List.getElem_range, valueAt, hword, List.getD_eq_getElem _ _ hi]

theorem started_indices_rename {values : List Word} (h : values.length ≤ permKMax) :
    (Generator.started (indices values.length)).rename (valueAt values) = .started values := by
  rw [Generator.rename, Generator.started, indices_map_valueAt h, indices_length]
  rfl

/-- The arrangements among what `k!` calls of `next` return for the indices. -/
def indexOrders (k : Nat) : List (List Word) := (emissions k.factorial (.started (indices k))).1.reduceOption

/-- The six runs: `k!` calls return arrangements, all different, and there are no more (vectors PG0 to PG5). -/
theorem emissions_indices {k : Nat} (h : k ≤ permKMax) :
    (emissions k.factorial (.started (indices k))).1 = (indexOrders k).map some ∧ (indexOrders k).Nodup ∧
      (emissions k.factorial (.started (indices k))).2.Exhausted := by
  revert k
  decide +kernel

theorem indexOrders_subset {k : Nat} {p : List Word} (h : p ∈ indexOrders k) : p ⊆ indices k :=
  (emissions_perm (List.reduceOption_mem_iff.1 h)).subset

/-! ### From the indices to the values -/

theorem eq_of_map_eq_map {f : Word → Word} {l p q : List Word} (hl : (l.map f).Nodup) (hp : p ⊆ l) (hq : q ⊆ l)
    (h : p.map f = q.map f) : p = q := by
  refine List.ext_getElem (by simpa using congrArg List.length h) fun i hi hj => ?_
  refine List.inj_on_of_nodup_map hl (hp (List.getElem_mem hi)) (hq (List.getElem_mem hj)) ?_
  rw [← List.getElem_map f (h := by simpa using hi), ← List.getElem_map f (h := by simpa using hj)]
  simp only [h]

/-- Settles O54: the arrangements of the indices, with each index replaced by its value. -/
theorem generatorEmitsEveryPermutationOnce : Obligations.GeneratorEmitsEveryPermutationOnce := by
  intro values g hg
  obtain ⟨hmax, rfl⟩ := genStart_ok_iff.1 hg
  obtain ⟨horders, hnodup, hend⟩ := emissions_indices hmax
  have hok : GenOk (.started (indices values.length)) := genOk_start (genStart_of_le (by simpa using hmax))
  have hrun := emissions_rename (valueAt values) values.length.factorial hok
  rw [started_indices_rename hmax] at hrun
  have hemit : (emissions values.length.factorial (.started values)).1 =
      ((indexOrders values.length).map (List.map (valueAt values))).map some := by
    simp [hrun, horders]
  refine ⟨_, hemit, ?_, fun p hp => ?_, fun hvalues => ?_, fun n => ?_⟩
  · rw [← List.length_map some, ← hemit, emissions_length]
  · have hmem : some p ∈ (emissions values.length.factorial (.started values)).1 := hemit ▸ List.mem_map_of_mem hp
    exact emissions_perm hmem
  · rw [← indices_map_valueAt hmax] at hvalues
    exact hnodup.map_on fun p hp q hq => eq_of_map_eq_map hvalues (indexOrders_subset hp) (indexOrders_subset hq)
  · rw [hrun]
    exact emissions_of_exhausted (hend.rename _ (genOk_emissions _ hok)) n

end Sys2Proof.Machine

/-! ## The statements about the orchestrator (48_orchestrator.md)

During a search the step is the orchestrator's action in its phase. What an action does to the machine it acts on is
said once, on the state with that machine in focus; the frame lemmas of the host's operations then give every other
machine. -/

namespace Sys2Proof.Machine

/-! ### Which action is taken, and on which machine -/

theorem step_of_search {s : State} (hn : ¬ s.stopped) (hb : s.core.busy = false) (hcall : s.call = .none) :
    step s = orchStep s := by
  rw [step_host hn hb, hostStep, hcall]

theorem machine_of_getElem? {o : Orchestrator} {h : Nat} (hm : o.machines[o.index]? = some h) : o.machine = h := by
  rw [Orchestrator.machine, List.getD_eq_getElem?_getD, hm, Option.getD_some]

/-- An operation on the instance in focus needs no change of focus. -/
theorem onInstance_of_focus {s : State} {h : Nat} (hn : ¬ s.stopped) (hb : s.core.busy = false)
    (hf : s.focus = some h) (k : State → Host.Outcome State Fault Refusal) : onInstance h s k = k s := by
  have hfocusOn : s.focusOn h = some s := if_pos hf
  rw [onInstance, hfocusOn]
  exact if_pos ⟨hb, fun hfaulted => hn (.inr (.inl hfaulted))⟩

/-! ### The call -/

theorem orchestrate_of_illegal {text : ProgramText} {values : List Word} (s : State)
    (h : values.length = 0 ∨ 5 < values.length) :
    orchestrate text values s = .next (s.systemFaulted ⟨.orchestratorProtocol, 2, BitVec.ofNat 64 values.length⟩) :=
  if_pos h

theorem orchestrate_of_load {text : ProgramText} {values ws : List Word} {s : State} (hpos : 1 ≤ values.length)
    (hmax : values.length ≤ 5) (hload : load s.cfg text = .ok ws) :
    orchestrate text values s = .next { s with
      gen := .started values
      orch := ⟨.next, ws, values, [], 0, 0, none⟩ } := by
  have hlegal : ¬ (values.length = 0 ∨ permKMax < values.length) := by simp only [permKMax]; omega
  rw [orchestrate, if_neg hlegal, hload]
  simp only [genStart_of_le hmax]

/-- Settles O56: the number of values decides, and a legal call loads the program and starts the generator. -/
theorem orchestratorChecksItsValues : Obligations.OrchestratorChecksItsValues := by
  intro s text values ws
  refine ⟨orchestrate_of_illegal s, fun hpos hmax hload => ?_⟩
  exact ⟨_, _, orchestrate_of_load hpos hmax hload, genStart_of_le hmax, rfl, rfl, rfl, rfl, rfl, rfl⟩

/-! ### The next arrangement -/

theorem orchNext_of_none {s : State} (h : (genNext s.gen).2 = none) :
    orchNext s = .next { s with
      gen := (genNext s.gen).1
      orch := { s.orch with phase := .idle }
      reply := .answer s.orch.best } := by
  have hnext : genNext s.gen = ((genNext s.gen).1, none) := Prod.ext rfl h
  rw [orchNext, hnext]

theorem orchNext_of_some {s : State} {p : List Word} (h : (genNext s.gen).2 = some p) :
    orchNext s = .next { buildMachines s.orch.program p s with
      gen := (genNext s.gen).1
      orch := { s.orch with
        phase := .feed
        machines := (List.range p.length).map (s.nextHandle + ·)
        index := 0
        carried := 0 } } := by
  have hnext : genNext s.gen = ((genNext s.gen).1, some p) := Prod.ext rfl h
  rw [orchNext, hnext]

theorem coreOf_of_nextHandle_le {s : State} {h : Nat} (hI : Inv s) (hle : s.nextHandle ≤ h) : s.coreOf h = none :=
  Option.eq_none_iff_forall_ne_some.2 fun _ hc => absurd (lt_nextHandle_of_coreOf hI hc) (Nat.not_lt.2 hle)

/-- Settles O57: the machine of value `j` gets the handle `j` places after the next one, which no instance has yet. -/
theorem orchestratorBuildsAFreshPipeline : Obligations.OrchestratorBuildsAFreshPipeline := by
  intro s p hI hn hb hcall hphase hp
  have hstep : step s = orchNext s := by
    rw [step_of_search hn hb hcall, orchStep, hphase]
  obtain ⟨-, -, hcoreOf⟩ := buildMachines_spec s.orch.program p hI hI.programFits
  refine ⟨_, hstep.trans (orchNext_of_some hp), rfl, ?_, rfl, rfl, rfl, rfl, fun j v hj => ?_, fun h hh => ?_⟩
  · simp
  · have hlt : j < p.length := (List.getElem?_eq_some_iff.1 hj).1
    refine ⟨s.nextHandle + j, ?_, coreOf_of_nextHandle_le hI (Nat.le_add_right _ _), (hcoreOf _).trans ?_⟩
    · simp [hlt]
    · rw [if_pos (by omega), Nat.add_sub_cancel_left, hj, Option.map_some]
  · exact (hcoreOf h).trans (if_neg (by omega))

/-! ### Feeding a machine and calling its run -/

section OneMachine
variable {s : State} {h : Nat} (hn : ¬ s.stopped) (hb : s.core.busy = false) (hcall : s.call = .none)
  (hm : s.orch.machines[s.orch.index]? = some h)

include hn hb hcall hm

/-- Rule R212: the push of the carried value, or its fault on the machine. -/
theorem step_of_feed {c : Core} (hI : Inv s) (hc : s.coreOf h = some c) (hphase : s.orch.phase = .feed) :
    ∃ t, step s = .next t ∧ (∀ j, j ≠ h → t.coreOf j = s.coreOf j) ∧
      (s.cfg.inDepth ≠ some c.inq.length →
        t.coreOf h = some { c with inq := c.inq ++ [s.orch.carried] } ∧ t.orch = { s.orch with phase := .call }) ∧
      (s.cfg.inDepth = some c.inq.length → t.coreOf h = some (c.latch ⟨.capacityExceeded, 3, 0⟩)) := by
  obtain ⟨s', hon, rfl, hfocus, hsame, -, hs'⟩ :=
    onInstance_runs hc (not_busy_of_coreOf hI hb hc) (not_faulted_of_coreOf hI hn hc)
  have hcfg : s'.cfg = s.cfg := by rw [hs']
  have horch : s'.orch = s.orch := by rw [hs']
  have hstep : step s = commit (s'.core.pushInput s.cfg s.orch.carried) (State.toPhase .call) s' := by
    rw [step_of_search hn hb hcall, orchStep, hphase]
    simp only [orchFeed, machine_of_getElem? hm, hon, hcfg, horch]
  rw [hstep, ← horch]
  by_cases hfull : s.cfg.inDepth = some s'.core.inq.length
  · rw [pushInput_of_full _ hfull]
    exact ⟨_, rfl, coreOf_of_replaced hsame hfocus rfl rfl, fun hroom => absurd hfull hroom,
      fun _ => coreOf_focus hfocus⟩
  · rw [pushInput_of_room _ hfull]
    exact ⟨_, rfl, coreOf_of_replaced hsame hfocus rfl rfl, fun _ => ⟨coreOf_focus hfocus, rfl⟩,
      fun h => absurd h hfull⟩

/-- Rule R212: the start of the machine's run, or its fault on the machine. -/
theorem step_of_call_phase {c : Core} (hI : Inv s) (hc : s.coreOf h = some c) (hphase : s.orch.phase = .call) :
    ∃ t, step s = .next t ∧ t.focus = some h ∧ (∀ j, j ≠ h → t.coreOf j = s.coreOf j) ∧
      (c.status ≠ .halted → t.core = { c with status := .running, busy := true } ∧ t.Runs ∧
        t.orch = { s.orch with phase := .collect }) ∧
      (c.status = .halted → t.core = c.latch ⟨.runAfterHalt, 0, 0⟩) := by
  obtain ⟨s', hon, rfl, hfocus, hsame, hfo, hs'⟩ :=
    onInstance_runs hc (not_busy_of_coreOf hI hb hc) (not_faulted_of_coreOf hI hn hc)
  have horch : s'.orch = s.orch := by rw [hs']
  have hstep : step s = commit s'.core.startRun (State.toPhase .collect) s' := by
    rw [step_of_search hn hb hcall, orchStep, hphase]
    simp only [orchCall, machine_of_getElem? hm, hon]
  rw [hstep, ← horch]
  by_cases hhalt : s'.core.status = .halted
  · rw [startRun_of_halted hhalt]
    exact ⟨_, rfl, hfocus, coreOf_of_replaced hsame hfocus rfl rfl, fun h => absurd hhalt h, fun _ => rfl⟩
  · rw [startRun_of_not_halted hhalt]
    have hn' := not_stopped_focusOn hI hn hb hfo
    exact ⟨_, rfl, hfocus, coreOf_of_replaced hsame hfocus rfl rfl,
      fun _ => ⟨rfl, ⟨not_stopped_replaced hn' nofun rfl rfl, rfl, rfl⟩, rfl⟩, fun h => absurd h hhalt⟩

/-! ### What the run of a machine returned -/

variable (hf : s.focus = some h) (hphase : s.orch.phase = .collect)

include hf hphase

theorem step_of_waiting (hr : s.core.result = .waiting) : step s = .next (orchWaiting s) := by
  rw [step_of_search hn hb hcall, orchStep, hphase]
  simp only [orchCollect, machine_of_getElem? hm, onInstance_of_focus hn hb hf, hr]

theorem step_of_completed {v : Word} (hr : s.core.result = .completed v) : step s = .next (orchCompleted v s) := by
  rw [step_of_search hn hb hcall, orchStep, hphase]
  simp only [orchCollect, machine_of_getElem? hm, onInstance_of_focus hn hb hf, hr]

end OneMachine

theorem orchWaiting_of_single {s : State} {v : Word} (h : s.core.outq = [v]) :
    orchWaiting s = { s with
      core := { s.core with outq := [] }
      orch := { s.orch with
        phase := .feed
        carried := v
        index := (s.orch.index + 1) % s.orch.machines.length } } := by
  simp only [orchWaiting, h, popOutput_of_cons h]

theorem orchWaiting_of_length_ne {s : State} (h : s.core.outq.length ≠ 1) :
    orchWaiting s = s.systemFaulted ⟨.orchestratorProtocol, 1, BitVec.ofNat 64 s.core.outq.length⟩ := by
  unfold orchWaiting
  split
  case h_1 v hq => exact absurd (congrArg List.length hq) h
  case h_2 => rfl

/-- Settles O58: a Waiting result hands its one output on; the two phases after it push that value and call the run. -/
theorem orchestratorHandsOnTheSingleOutput : Obligations.OrchestratorHandsOnTheSingleOutput := by
  intro s h hn hb hcall hm
  refine ⟨fun hphase hf hr => ?_, fun c hI hc => ⟨fun hphase => ?_, fun hphase => ?_⟩⟩
  · rw [step_of_waiting hn hb hcall hm hf hphase hr]
    exact ⟨fun v hq => congrArg _ (orchWaiting_of_single hq), fun hq => congrArg _ (orchWaiting_of_length_ne hq)⟩
  · exact step_of_feed hn hb hcall hm hI hc hphase
  · exact step_of_call_phase hn hb hcall hm hI hc hphase

/-! ### The end of an arrangement -/

theorem bestAfter_some (b f : Word) : bestAfter (some b) f = some (if b.toInt < f.toInt then f else b) :=
  (apply_ite some (b.toInt < f.toInt) f b).symm

theorem orchCompleted_of_last {s : State} (v : Word) (h : s.orch.index + 1 = s.orch.machines.length) :
    orchCompleted v s = { dropMachines s.orch.machines s with
      orch := { s.orch with
        phase := .next
        carried := v
        machines := []
        best := bestAfter s.orch.best v } } := if_pos h

theorem orchCompleted_of_not_last {s : State} (v : Word) (h : s.orch.index + 1 ≠ s.orch.machines.length) :
    orchCompleted v s = { s with orch := { s.orch with phase := .feed, carried := v, index := s.orch.index + 1 } } :=
  if_neg h

/-- Settles O59: a machine before the last leaves a state whose next step is the push of `v`, and the last one drops the
machines and updates `best`. -/
theorem orchestratorEndsAtTheLastMachine : Obligations.OrchestratorEndsAtTheLastMachine := by
  intro s h v hI hn hb hcall hphase hf hm hr
  rw [step_of_completed hn hb hcall hm hf hphase hr]
  by_cases hlast : s.orch.index + 1 = s.orch.machines.length
  · rw [orchCompleted_of_last v hlast]
    obtain ⟨-, -, hcoreOf⟩ := dropMachines_spec s.orch.machines hI
    refine ⟨_, rfl, rfl, fun hlt => by omega, fun _ => ⟨rfl, fun h' hh' => ?_, fun hnone => ?_, fun b hsome => ?_⟩⟩
    · exact (hcoreOf h').trans (if_pos hh')
    · show bestAfter s.orch.best v = some v
      rw [hnone, bestAfter]
    · show bestAfter s.orch.best v = _
      rw [hsome, bestAfter_some]
  · rw [orchCompleted_of_not_last v hlast]
    refine ⟨_, rfl, rfl, fun _ => ⟨rfl, fun h' c' hm' hc' hroom => ?_⟩, fun h => absurd h hlast⟩
    obtain ⟨u, hu, -, hpush, -⟩ := step_of_feed (s := { s with orch := { s.orch with
      phase := .feed, carried := v, index := s.orch.index + 1 } })
      hn hb hcall hm' (hI.of_same rfl rfl rfl rfl rfl rfl rfl) hc' rfl
    obtain ⟨hcore, horch⟩ := hpush hroom
    exact ⟨u, hu, by rw [horch], by rw [horch], hcore⟩

/-! ### The answer -/

/-- `best` after some final results is one of them, or the one it was before, and none is larger. -/
theorem foldl_bestAfter_some (b : Word) (finals : List Word) :
    ∃ m ∈ b :: finals, finals.foldl bestAfter (some b) = some m ∧ ∀ f ∈ b :: finals, f.toInt ≤ m.toInt := by
  induction finals generalizing b with
  | nil => exact ⟨b, List.mem_singleton_self b, rfl, by simp⟩
  | cons f rest ih =>
    rw [List.foldl_cons, bestAfter_some]
    by_cases hlt : b.toInt < f.toInt
    · rw [if_pos hlt]
      obtain ⟨m, hmem, hfold, hmax⟩ := ih f
      obtain ⟨hf, hrest⟩ := List.forall_mem_cons.1 hmax
      have hb : b.toInt ≤ m.toInt := by omega
      exact ⟨m, List.mem_cons_of_mem b hmem, hfold, List.forall_mem_cons.2 ⟨hb, hmax⟩⟩
    · rw [if_neg hlt]
      obtain ⟨m, hmem, hfold, hmax⟩ := ih b
      obtain ⟨hb, hrest⟩ := List.forall_mem_cons.1 hmax
      have hf : f.toInt ≤ m.toInt := by omega
      exact ⟨m, List.mem_cons.2 ((List.mem_cons.1 hmem).imp_right (List.mem_cons_of_mem f)), hfold,
        List.forall_mem_cons.2 ⟨hb, List.forall_mem_cons.2 ⟨hf, hrest⟩⟩⟩

/-- Settles O60: the search ends with `best`, which each arrangement's end replaces by `bestAfter`, and that folds to
the largest final result. -/
theorem orchestratorAnswerIsTheMaximum : Obligations.OrchestratorAnswerIsTheMaximum := by
  refine ⟨fun s hn hb hcall hphase hnone => ?_, fun s h v hn hb hcall hphase hf hm hr hlast => ?_,
    fun finals hne => ?_⟩
  · rw [step_of_search hn hb hcall, orchStep, hphase]
    exact orchNext_of_none hnone
  · rw [step_of_completed hn hb hcall hm hf hphase hr, orchCompleted_of_last v hlast]
    exact ⟨_, rfl, rfl, rfl⟩
  · obtain ⟨f, rest, rfl⟩ := List.exists_cons_of_ne_nil hne
    exact foldl_bestAfter_some f rest

end Sys2Proof.Machine

/-! ## The statements about exceptions (60_exceptions.md)

An instruction latches the fault its effect raises. So the order of rule R241 is read off the effects: each shared
operation is given one lemma that says what it raises at each of its checks, once the checks before it have passed. -/

namespace Sys2Proof.Machine

theorem exec_of_effect_error {s : State} {i : Instr} {t : Trap} (h : effect s.cfg s.core i = .error t) :
    exec i s = .next (s.faulted t) := by
  rw [exec_eq_retire, h, retire_error]
  rfl

/-! ### ADD, MUL, LT and EQ -/

/-- The checks of `binary` in the order of rule R241: first source, second source, result, destination. -/
theorem binary_error_in_order (cfg : Config) (f : Word → Word → Except Trap Word) (a b d : Param) (c : Core) :
    (∀ t, SourceFaults cfg c a t → binary cfg f a b d c = .error t) ∧
    ∀ x, Source cfg c a x →
      (∀ t, SourceFaults cfg c b t → binary cfg f a b d c = .error t) ∧
      ∀ y, Source cfg c b y →
        (∀ t, f x y = .error t → binary cfg f a b d c = .error t) ∧
        ∀ r, f x y = .ok r → ∀ t, DestinationFaults cfg c d t → binary cfg f a b d c = .error t := by
  refine ⟨fun t ha => ?_, fun x ha => ⟨fun t hb => ?_, fun y hb => ⟨fun t hr => ?_, fun r hr t hd => ?_⟩⟩⟩
  · rw [binary, readParam_error_iff.2 ha]
    rfl
  · rw [binary, readParam_ok_iff.2 ha, readParam_error_iff.2 hb]
    rfl
  · rw [binary, readParam_ok_iff.2 ha, readParam_ok_iff.2 hb]
    simp only [bind, Except.bind, hr]
  · rw [binary, readParam_ok_iff.2 ha, readParam_ok_iff.2 hb]
    simp only [bind, Except.bind, hr, writeParam_error_iff.2 hd]

theorem checked_of_overflows {cfg : Config} {v : Int} (detail : Nat) (h : Overflows cfg v) :
    checked cfg detail v = .error ⟨.arithmeticOverflow, detail, 0⟩ :=
  checked_error_iff.2 ⟨h, rfl⟩

/-- The converse of `checked_of_overflows`. -/
theorem checked_of_not_overflows {cfg : Config} {v : Int} (detail : Nat) (h : ¬ Overflows cfg v) :
    ∃ r, checked cfg detail v = .ok r := by
  rcases hv : checked cfg detail v with t | r
  · exact absurd (checked_error_iff.1 hv).1 h
  · exact ⟨r, rfl⟩

/-- The result of each of the four instructions: the relations' is always a word, and the sum's and the product's is one
unless it overflows. -/
theorem effect_eq_binary {cfg : Config} {c : Core} {a b d : Param} {i : Instr}
    (hi : i ∈ [.add a b d, .mul a b d, .lt a b d, .eq a b d]) :
    ∃ f : Word → Word → Except Trap Word, effect cfg c i = binary cfg f a b d c ∧ ∀ x y : Word,
      (i = .add a b d → f x y = checked cfg 1 (x.toInt + y.toInt)) ∧
      (i = .mul a b d → f x y = checked cfg 1 (x.toInt * y.toInt)) ∧
      (i ≠ .add a b d → i ≠ .mul a b d → ∃ r, f x y = .ok r) := by
  simp only [List.mem_cons, List.not_mem_nil, or_false] at hi
  rcases hi with rfl | rfl | rfl | rfl
  · exact ⟨_, rfl, fun x y => ⟨fun _ => rfl, nofun, fun h => absurd rfl h⟩⟩
  · exact ⟨_, rfl, fun x y => ⟨nofun, fun _ => rfl, fun _ h => absurd rfl h⟩⟩
  · exact ⟨_, rfl, fun x y => ⟨nofun, nofun, fun _ _ => ⟨_, rfl⟩⟩⟩
  · exact ⟨_, rfl, fun x y => ⟨nofun, nofun, fun _ _ => ⟨_, rfl⟩⟩⟩

/-- Settles O26: the checks of `binary`, whose result is checked for ADD and MUL only. -/
theorem arithmeticAndRelationFaultsInOrder : Obligations.ArithmeticAndRelationFaultsInOrder := by
  intro s a b d i hi
  obtain ⟨f, heffect, hf⟩ := effect_eq_binary (cfg := s.cfg) (c := s.core) hi
  obtain ⟨hfirst, hrest⟩ := binary_error_in_order s.cfg f a b d s.core
  rw [← heffect] at hfirst hrest
  refine ⟨fun t ha => exec_of_effect_error (hfirst t ha), fun x ha => ?_⟩
  obtain ⟨hsecond, hrest⟩ := hrest x ha
  refine ⟨fun t hb => exec_of_effect_error (hsecond t hb), fun y hb => ?_⟩
  obtain ⟨hresult, hdest⟩ := hrest y hb
  obtain ⟨hadd, hmul, hother⟩ := hf x y
  refine ⟨fun hi ho => ?_, fun hi ho => ?_, fun hnadd hnmul t hd => ?_⟩
  · exact exec_of_effect_error (hresult _ ((hadd hi).trans (checked_of_overflows 1 ho)))
  · exact exec_of_effect_error (hresult _ ((hmul hi).trans (checked_of_overflows 1 ho)))
  · obtain ⟨r, hr⟩ : ∃ r, f x y = .ok r := by
      by_cases h1 : i = .add a b d
      · rw [hadd h1]
        exact checked_of_not_overflows 1 (hnadd h1)
      · by_cases h2 : i = .mul a b d
        · rw [hmul h2]
          exact checked_of_not_overflows 1 (hnmul h2)
        · exact hother h1 h2
    exact exec_of_effect_error (hdest r hr t hd)

/-! ### The jumps -/

/-- The reads of `jumpWhen` in the order of rule R241; `jumpWhen_of_sources` says what follows them. -/
theorem jumpWhen_error_in_order (taken : Word → Bool) (cfg : Config) (a b : Param) (c : Core) :
    (∀ t, SourceFaults cfg c a t → jumpWhen taken cfg a b c = .error t) ∧
    ∀ x, Source cfg c a x → ∀ t, SourceFaults cfg c b t → jumpWhen taken cfg a b c = .error t := by
  refine ⟨fun t ha => ?_, fun x ha t hb => ?_⟩
  · rw [jumpWhen, readParam_error_iff.2 ha]
    rfl
  · rw [jumpWhen, readParam_ok_iff.2 ha, readParam_error_iff.2 hb]
    rfl

/-- Each of the two jumps is `jumpWhen` of its test, which is JNZ's or its opposite. -/
theorem effect_eq_jumpWhen {cfg : Config} {c : Core} {a b : Param} {i : Instr} (hi : i ∈ [.jnz a b, .jz a b]) :
    ∃ taken, effect cfg c i = jumpWhen taken cfg a b c ∧
      ∀ x, taken x = true ↔ (i = .jnz a b ↔ x.toInt ≠ 0) := by
  simp only [List.mem_cons, List.not_mem_nil, or_false] at hi
  rcases hi with rfl | rfl
  · exact ⟨notZero, rfl, fun x => by simp [notZero_eq_true_iff]⟩
  · exact ⟨isZero, rfl, fun x => by simp [isZero_eq_true_iff]⟩

/-- Settles O27: the two reads come first, and a jump that is taken then looks at the sign of its target. -/
theorem jumpFaultsInOrder : Obligations.JumpFaultsInOrder := by
  intro s a b i hi
  obtain ⟨taken, heffect, htaken⟩ := effect_eq_jumpWhen (cfg := s.cfg) (c := s.core) hi
  obtain ⟨hcond, htarget⟩ := jumpWhen_error_in_order taken s.cfg a b s.core
  refine ⟨fun t ha => exec_of_effect_error (heffect.trans (hcond t ha)), fun x ha => ⟨fun t hb => ?_, ?_⟩⟩
  · exact exec_of_effect_error (heffect.trans (htarget x ha t hb))
  · intro y hb hneg hjump
    refine exec_of_effect_error (heffect.trans ?_)
    rw [jumpWhen_of_sources taken ha hb, if_pos ((htaken x).2 hjump), if_pos hneg]

/-! ### IN, OUT, ARB and HLT -/

theorem takeInput_of_destinationFaults {cfg : Config} {d : Param} {c : Core} {t : Trap} (hq : c.inq ≠ [])
    (hd : DestinationFaults cfg c d t) : takeInput cfg d c = .error t := by
  obtain ⟨v, rest, hv⟩ := List.exists_cons_of_ne_nil hq
  rw [takeInput, hv]
  simp only [bind, Except.bind, writeParam_error_iff.2 hd]

theorem giveOutput_of_sourceFaults {cfg : Config} {a : Param} {c : Core} {t : Trap} (ha : SourceFaults cfg c a t) :
    giveOutput cfg a c = .error t := by
  rw [giveOutput, readParam_error_iff.2 ha]
  rfl

theorem giveOutput_of_full {cfg : Config} {a : Param} {c : Core} {v : Word} (ha : Source cfg c a v)
    (hfull : cfg.outDepth = some c.outq.length) : giveOutput cfg a c = .error ⟨.capacityExceeded, 2, 0⟩ := by
  rw [giveOutput, readParam_ok_iff.2 ha]
  simp only [bind, Except.bind, if_pos hfull]

theorem adjustBase_of_sourceFaults {cfg : Config} {a : Param} {c : Core} {t : Trap} (ha : SourceFaults cfg c a t) :
    adjustBase cfg a c = .error t := by
  rw [adjustBase, readParam_error_iff.2 ha]
  rfl

theorem adjustBase_of_overflows {cfg : Config} {a : Param} {c : Core} {v : Word} (ha : Source cfg c a v)
    (ho : Overflows cfg (c.rb.toInt + v.toInt)) : adjustBase cfg a c = .error ⟨.arithmeticOverflow, 3, 0⟩ := by
  rw [adjustBase, readParam_ok_iff.2 ha]
  simp only [bind, Except.bind, checked_of_overflows 3 ho]

theorem haltWithLast_of_nil {c : Core} (h : c.outq = []) : haltWithLast c = .error ⟨.haltWithoutOutput, 0, 0⟩ := by
  rw [haltWithLast, h, List.getLast?_nil]

/-- Settles O28: each instruction latches what its own effect raises. -/
theorem queueAndBaseFaultsInOrder : Obligations.QueueAndBaseFaultsInOrder := by
  intro s a
  refine ⟨fun hq t hd => ?_, fun t ha => ⟨?_, ?_⟩, fun v ha => ⟨fun hfull => ?_, fun ho => ?_⟩, fun hq => ?_⟩
  · exact exec_of_effect_error (takeInput_of_destinationFaults hq hd)
  · exact exec_of_effect_error (giveOutput_of_sourceFaults ha)
  · exact exec_of_effect_error (adjustBase_of_sourceFaults ha)
  · exact exec_of_effect_error (giveOutput_of_full ha hfull)
  · exact exec_of_effect_error (adjustBase_of_overflows ha ho)
  · exact exec_of_effect_error (haltWithLast_of_nil hq)

/-! ### What an instruction without a destination leaves -/

section NoDestination
variable {cfg : Config} {c c' : Core} {i : Instr} {dir : Directive}

theorem EffectSpec.mem_of_no_dst (hs : EffectSpec cfg c i c' dir) (hi : i.dst? = none) : c'.mem = c.mem := by
  rcases hs.mem with hm | ⟨q, n, v, hq, -⟩
  · exact hm
  · exact absurd (hi.symm.trans hq) nofun

theorem EffectSpec.inq_of_no_dst (hs : EffectSpec cfg c i c' dir) (hi : i.dst? = none) : c'.inq = c.inq :=
  hs.inq_of_not_inp fun p hp => by rw [hp] at hi; cases hi

theorem EffectSpec.outq_of_not_out (hs : EffectSpec cfg c i c' dir) (hi : ∀ a, i ≠ .out a) : c'.outq = c.outq := by
  rcases hs.outq with h | ⟨a, v, ha, -⟩
  · exact h
  · exact absurd ha (hi a)

theorem EffectSpec.rb_of_not_arb (hs : EffectSpec cfg c i c' dir) (hi : ∀ a, i ≠ .arb a) : c'.rb = c.rb := by
  rcases hs.rb with h | ⟨a, ha⟩
  · exact h
  · exact absurd ha (hi a)

/-- Only IN suspends and only HLT halts: every other effect leaves the run and its result as they were. -/
theorem EffectSpec.run_of_not_hlt (hs : EffectSpec cfg c i c' dir) (hi : i.dst? = none) (hh : i ≠ .hlt) (w : Nat) :
    (c'.apply w dir).result = c.result ∧ (c'.apply w dir).status = c.status ∧ (c'.apply w dir).busy = c.busy := by
  cases dir with
  | advance => exact ⟨hs.result, hs.status, hs.busy⟩
  | jump t => exact ⟨hs.result, hs.status, hs.busy⟩
  | suspend =>
    obtain ⟨p, rfl, -⟩ := hs.suspends rfl
    cases hi
  | halt v =>
    obtain ⟨hhlt, -⟩ := hs.halts v rfl
    exact absurd hhlt hh

end NoDestination

/-- Settles O30: a fault changes the latch only, and each element an effect may change belongs to one instruction. -/
theorem nonStoringInstructionsFrame : Obligations.NonStoringInstructionsFrame := by
  intro s t i hi hexec
  rcases exec_next_cases hexec with ⟨c, dir, hs, rfl⟩ | ⟨tr, rfl⟩
  · have hmem : (c.apply i.width dir).mem = s.core.mem := (apply_mem ..).trans (hs.mem_of_no_dst hi)
    refine ⟨rfl, hmem, fun k => congrArg (Memory.read · k) hmem, ?_, fun ho => ?_, fun ha => ?_, fun _ => ?_,
      fun hh => ?_⟩
    · exact (apply_inq ..).trans (hs.inq_of_no_dst hi)
    · exact (apply_outq ..).trans (hs.outq_of_not_out ho)
    · exact (apply_rb ..).trans (hs.rb_of_not_arb ha)
    · exact (apply_fault ..).trans hs.fault
    · obtain ⟨hresult, hstatus, hbusy⟩ := hs.run_of_not_hlt hi hh i.width
      exact ⟨hresult, fun _ => ⟨hstatus, hbusy⟩⟩
  · exact ⟨rfl, rfl, fun _ => rfl, rfl, fun _ => rfl, fun _ => rfl, fun h => absurd rfl h,
      fun _ => ⟨rfl, fun h => absurd rfl h⟩⟩

/-! ### A cycle is safe or latches one fault -/

theorem apply_not_faulted (w : Nat) {c : Core} (d : Directive) (h : c.status ≠ .faulted) :
    (c.apply w d).status ≠ .faulted := by
  cases d with
  | advance => exact h
  | jump t => exact h
  | suspend => exact nofun
  | halt v => exact nofun

/-- Settles O32: a cycle commits an effect and its directive, which latch nothing, or it latches one fault. -/
theorem faultsArePrecise : Obligations.FaultsArePrecise := by
  intro s ⟨hn, hbusy, hrun⟩
  rw [SafeStep, step_enabled hn ⟨hbusy, hrun⟩]
  rcases cycle_cases s with ⟨i, c, d, -, he, hcyc⟩ | ⟨tr, hcyc⟩
  · have hc : c.status ≠ .faulted := by rw [(effect_ok he).status, hrun]; exact nofun
    exact .inl ⟨_, hcyc, not_stopped_replaced hn (apply_not_faulted _ d hc) rfl rfl⟩
  · exact .inr ⟨tr, hcyc⟩

end Sys2Proof.Machine

/-! ## The statements about reset and hazards (70_reset_and_hazards.md)

The run that stands at an IN with nothing to read is followed step by step: each of the five steps is a lemma about any
state of its kind, and the invariant at reset is that of an empty core. -/

namespace Sys2Proof.Machine

/-! ### Reset -/

theorem genOk_reset : GenOk Generator.reset where
  kMax := Nat.zero_le _
  oneEach := rfl
  depthBound := le_refl _
  counterBound := fun _ => Nat.zero_le _

/-- Settles O42: the core at reset is in order, no other instance exists, and the generator and the program are
empty. -/
theorem resetMeetsTheInvariant : Obligations.ResetMeetsTheInvariant where
  cfgWf := (by decide : Config.default.wf)
  coreOk := coreOk_reset _
  parkedOk := nofun
  parkedSorted := .nil
  focusOk := fun h hh => by
    cases hh
    exact ⟨Nat.one_pos, rfl⟩
  genOk := genOk_reset
  programFits := nofun

theorem not_stopped_reset : ¬ State.reset.stopped := by decide

/-- Settles O43: each value is the one `State.reset` writes. -/
theorem resetValues : Obligations.ResetValues :=
  ⟨rfl, rfl, rfl, rfl, rfl, rfl, rfl, rfl, rfl, rfl, rfl, rfl, rfl, rfl, rfl, not_stopped_reset⟩

/-! ### Some steps of a machine, one after another -/

theorem run_succ_of_step {M : Host.Core} {s t : M.State} (k : Nat) (h : M.step s = .next t) :
    M.run (k + 1) s = M.run k t := by
  rw [Host.Core.run, h]

/-- Some steps and then more are the more steps from where the first ones end. -/
theorem run_add_of_run {M : Host.Core} {m : Nat} (k : Nat) {s t : M.State} (h : M.run m s = .next t) :
    M.run (m + k) s = M.run k t := by
  induction m generalizing s with
  | zero =>
    cases h
    rw [Nat.zero_add]
  | succ m ih =>
    rw [Nat.add_right_comm]
    rcases hs : M.step s with s' | r | r
    · rw [run_succ_of_step _ hs] at h ⊢
      exact ih h
    · rw [Host.Core.run, hs] at h
      cases h
    · rw [Host.Core.run, hs] at h
      cases h

theorem run_two_of_steps {s t u : State} (h : step s = .next t) (h' : step t = .next u) : core.run 2 s = .next u :=
  (run_succ_of_step (M := core) 1 h).trans (run_succ_of_step (M := core) 0 h')

/-! ### A suspended IN -/

/-- The state after a run has suspended (rule R114). -/
def State.suspended (s : State) : State :=
  { s with core := { s.core with status := .waiting, busy := false, result := .waiting } }

theorem not_stopped_suspended {s : State} (hn : ¬ s.stopped) : ¬ s.suspended.stopped :=
  not_stopped_replaced hn (by simp [State.suspended]) rfl rfl

/-- The same after the host's call has returned. -/
def State.returnedWaiting (s : State) : State := { s.suspended with call := .none, reply := .runResult .waiting }

/-- The suspension and the return. -/
theorem run_two_of_empty_queue {s : State} {d : Param} (hr : s.Runs) (hcall : s.call = .run) (hempty : s.core.inq = [])
    (hd : decode s.cfg.strictModeDigits s.core.fetchWords = .ok (.inp d)) :
    core.run 2 s = .next s.returnedWaiting := by
  have hsuspend : step s = .next s.suspended := (step_of_decode_ok hr hd).trans (inSuspendsOnAnEmptyQueue s d hempty)
  obtain ⟨hreturn, -⟩ := callsReturnTheResult _ (not_stopped_suspended hr.1) rfl
  exact run_two_of_steps hsuspend (hreturn hcall)

section HostTurn
variable {s : State} {h : Nat} {rest : List HostOp} (hturn : s.HostTurn) (hf : s.focus = some h)

include hturn hf

theorem step_of_push {v : Word} (hs : s.script = .pushInput h v :: rest)
    (hroom : s.cfg.inDepth ≠ some s.core.inq.length) :
    step s = .next { s with
      core := { s.core with inq := s.core.inq ++ [v] }
      script := rest
      reply := .done } := by
  rw [step_of_hostTurn hturn, hostNext, hs]
  obtain ⟨hn, hb, -, -⟩ := hturn
  simp only [perform, hostPushInput]
  rw [onInstance_of_focus (s := { s with script := rest }) hn hb hf, pushInput_of_room v hroom, commit]

theorem step_of_run (hs : s.script = .run h :: rest) (hhalt : s.core.status ≠ .halted) :
    step s = .next { s with
      core := { s.core with status := .running, busy := true }
      script := rest
      call := .run } := by
  rw [step_of_hostTurn hturn, hostNext, hs]
  obtain ⟨hn, hb, -, -⟩ := hturn
  simp only [perform, hostRun]
  rw [onInstance_of_focus (s := { s with script := rest }) hn hb hf, startRun_of_not_halted hhalt, commit]

end HostTurn

/-- A waiting machine with one value pushed and its run called again. -/
def State.resumedWith (v : Word) (rest : List HostOp) (s : State) : State :=
  { s with
    core := { s.core with inq := s.core.inq ++ [v], status := .running, busy := true }
    script := rest
    call := .run
    reply := .done }

/-- The push and the call. -/
theorem run_two_of_push_and_run {s : State} {h : Nat} {v : Word} {rest : List HostOp} (hturn : s.HostTurn)
    (hf : s.focus = some h) (hs : s.script = .pushInput h v :: .run h :: rest)
    (hroom : s.cfg.inDepth ≠ some s.core.inq.length) (hhalt : s.core.status ≠ .halted) :
    core.run 2 s = .next (s.resumedWith v rest) :=
  run_two_of_steps (step_of_push hturn hf hs hroom) (step_of_run (by exact hturn) (by exact hf) rfl hhalt)

/-- Settles O51: the run suspends and returns, the push and the call put it back at the same IN, and that IN now has a
value to take. -/
theorem suspendedInputResumes : Obligations.SuspendedInputResumes := by
  intro s h n d v rest hr hf hcall hphase hs hempty hdepth hd hdest
  have hwait := run_two_of_empty_queue hr hcall hempty hd
  refine ⟨⟨_, hwait, rfl, rfl, rfl, rfl⟩, ?_⟩
  obtain ⟨hn, hbusy, hrun⟩ := hr
  have hturn : s.returnedWaiting.HostTurn :=
    ⟨not_stopped_suspended (s := s) hn, rfl, rfl, hphase⟩
  have hroom : s.cfg.inDepth ≠ some s.core.inq.length := by rw [hempty]; exact hdepth
  have hresume := run_two_of_push_and_run hturn hf hs hroom nofun
  have hruns : (s.returnedWaiting.resumedWith v rest).Runs :=
    ⟨not_stopped_replaced hn (by simp [State.resumedWith]) rfl rfl, rfl, rfl⟩
  have hqueue : (s.returnedWaiting.resumedWith v rest).core.inq = [v] := congrArg (· ++ [v]) hempty
  have hin := (step_of_decode_ok hruns hd).trans (inStoresTheFrontOfTheQueue _ d v [] n hqueue hdest)
  refine ⟨_, (run_add_of_run 3 hwait).trans ((run_add_of_run 1 hresume).trans (run_succ_of_step 0 hin)), ?_⟩
  simp [State.resumedWith, State.returnedWaiting, State.suspended, hempty, hrun, hbusy]

end Sys2Proof.Machine
